-- ==== Sys2Proof/Word.lean ====
section
/-! DEFINITION. The word types of the CA1 CORE: every register, memory byte, operand and address is an unsigned
integer of 8 bits (spec 00_scope.md R5, R7). -/

namespace Sys2Proof

/-- An 8-bit unsigned value (R7): a register's contents, a memory byte, an operand byte. -/
abbrev Byte := BitVec 8

/-- An 8-bit address (R5: `AW` = 8), so address arithmetic wraps mod 256 (R17, R33). -/
abbrev Addr := Byte

/-- The index of a general register, 0 to 7 (R12). -/
abbrev RegIdx := Fin 8

/-- The operand byte that names register `i` (R49). -/
def regByte (i : RegIdx) : Byte := BitVec.ofNat 8 i.val

end Sys2Proof
end

