-- ==== Sys2Proof/Config.lean ====
section
/-! DEFINITION. What is fixed when a CA1 CORE is built: the named parameters of spec 00_scope.md R6. The values
this spec decides for them are in Sys2Proof/Machine/Params.lean. The model needs no free value. -/

namespace Sys2Proof

/-- The mnemonics of the opcode map (30_encoding.md R51), in the table's order. -/
inductive Mnemonic where
  | hlt | ldi | prn | add | mul | cmp | and | push | pop | call | jmp | jeq | jne
  deriving DecidableEq, Repr

/-- Every mnemonic once, in the order of R51. -/
def Mnemonic.all : List Mnemonic :=
  [.hlt, .ldi, .prn, .add, .mul, .cmp, .and, .push, .pop, .call, .jmp, .jeq, .jne]

/-- The four instruction formats (30_encoding.md R48). -/
inductive InstrFormat where
  | f0     -- opcode alone
  | f1r    -- opcode, register index
  | f2rr   -- opcode, register index, register index
  | f2ri   -- opcode, register index, 8-bit immediate
  deriving DecidableEq, Repr

/-- `OPCODE_MAP`: the numeric opcode of each instruction (R6, R51). -/
structure OpcodeMap where
  hlt  : Byte
  ldi  : Byte
  prn  : Byte
  add  : Byte
  mul  : Byte
  cmp  : Byte
  and  : Byte
  push : Byte
  pop  : Byte
  call : Byte
  jmp  : Byte
  jeq  : Byte
  jne  : Byte
  deriving DecidableEq, Repr

/-- The opcode byte the map gives a mnemonic. -/
def OpcodeMap.get (o : OpcodeMap) : Mnemonic → Byte
  | .hlt  => o.hlt
  | .ldi  => o.ldi
  | .prn  => o.prn
  | .add  => o.add
  | .mul  => o.mul
  | .cmp  => o.cmp
  | .and  => o.and
  | .push => o.push
  | .pop  => o.pop
  | .call => o.call
  | .jmp  => o.jmp
  | .jeq  => o.jeq
  | .jne  => o.jne

/-- The named parameters of R6, but for the memory image `M0`, which is the memory of the state itself.
DESIGN CHOICE (notes/assumptions/1.md): they are carried in State, and no step changes them. -/
structure Config where
  /-- `SP_INIT`, the empty-stack top and reset value of R7. -/
  spInit        : Byte
  /-- `STACK_FLOOR`, the lowest address a PUSH or CALL may leave in SP. -/
  stackFloor    : Byte
  /-- `OPCODE_MAP`. -/
  opcodes       : OpcodeMap
  /-- `AND_DISPATCHED`, whether the AND opcode is in the dispatch table. -/
  andDispatched : Bool
  deriving DecidableEq, Repr

end Sys2Proof
end

