-- ==== Sys2Proof/Machine/Params.lean ====
section
/-! DEFINITION. The values of the parameters and the encoding tables of spec 00_scope.md R6 and 30_encoding.md R48,
R51: the formats of the mnemonics, which of them are dispatched, and the defaults. -/

namespace Sys2Proof

/-- The format of each instruction (R48). -/
def Mnemonic.format : Mnemonic → InstrFormat
  | .hlt => .f0
  | .prn | .push | .pop | .call | .jmp | .jeq | .jne => .f1r
  | .add | .mul | .cmp | .and => .f2rr
  | .ldi => .f2ri

/-- How many operand bytes a format carries (R48, column `AA`). -/
def InstrFormat.operandCount : InstrFormat → Nat
  | .f0 => 0
  | .f1r => 1
  | .f2rr | .f2ri => 2

/-- How many operand bytes an instruction carries (R48). -/
def Mnemonic.operandCount (m : Mnemonic) : Nat := m.format.operandCount

/-- Membership in the dispatch table: every mnemonic, AND exactly when `AND_DISPATCHED` is true
(40_cycle.md R62). -/
def Config.dispatched (c : Config) (m : Mnemonic) : Bool := m != .and || c.andDispatched

/-- The default `OPCODE_MAP` (R51). PRESUMED, by the spec itself: its numbers are general knowledge, not in the
source (D4; notes/assumptions/2.md). -/
def defaultOpcodes : OpcodeMap :=
  { hlt := 0x01, ldi := 0x82, prn := 0x47, add := 0xA0, mul := 0xA2, cmp := 0xA7, and := 0xA8
    push := 0x45, pop := 0x46, call := 0x50, jmp := 0x54, jeq := 0x55, jne := 0x56 }

/-- The defaults of R6. `SP_INIT` = 0xF4 is PRESUMED by the spec itself (D7; notes/assumptions/3.md). -/
def defaultConfig : Config :=
  { spInit := 0xF4, stackFloor := 0x00, opcodes := defaultOpcodes, andDispatched := false }

/-- The defaults with AND dispatched: the machine whose table has all thirteen rows of opcode_table.json
(41_alu.md R78; notes/assumptions/6.md). -/
def andConfig : Config := { defaultConfig with andDispatched := true }

end Sys2Proof
end

