-- ==== Sys2Proof/Syntax.lean ====
section
/-! DEFINITION. The instructions of the CA1 CORE as data: one constructor per row of spec/opcode_table.json. An
operand is its raw byte, used whole (30_encoding.md R49); the range of a register index is checked by the handler
(R50), so an index above 7 is an instruction too, and one that faults (notes/assumptions/10.md). -/

namespace Sys2Proof

/-- The instructions. Operand names are those of R48: `r`, `a`, `b` register indices, `imm` the immediate. -/
inductive Instr where
  | hlt
  | ldi  (r imm : Byte)
  | prn  (r : Byte)
  | add  (a b : Byte)
  | mul  (a b : Byte)
  | cmp  (a b : Byte)
  | and  (a b : Byte)
  | push (r : Byte)
  | pop  (r : Byte)
  | call (r : Byte)
  | jmp  (r : Byte)
  | jeq  (r : Byte)
  | jne  (r : Byte)
  deriving DecidableEq, Repr

/-- The mnemonic of an instruction. -/
def Instr.mnemonic : Instr → Mnemonic
  | .hlt => .hlt
  | .ldi _ _ => .ldi
  | .prn _ => .prn
  | .add _ _ => .add
  | .mul _ _ => .mul
  | .cmp _ _ => .cmp
  | .and _ _ => .and
  | .push _ => .push
  | .pop _ => .pop
  | .call _ => .call
  | .jmp _ => .jmp
  | .jeq _ => .jeq
  | .jne _ => .jne

/-- The register-index operands an instruction names, operandA first (R48, R50). -/
def Instr.registers : Instr → List Byte
  | .hlt => []
  | .ldi r _ => [r]
  | .prn r => [r]
  | .add a b => [a, b]
  | .mul a b => [a, b]
  | .cmp a b => [a, b]
  | .and a b => [a, b]
  | .push r => [r]
  | .pop r => [r]
  | .call r => [r]
  | .jmp r => [r]
  | .jeq r => [r]
  | .jne r => [r]

end Sys2Proof
end

