-- ==== Sys2Proof/WellFormed.lean ====
section
/-! DEFINITION. What makes an instruction well formed (30_encoding.md R50, 40_cycle.md R62) and what makes a choice
of parameters one the spec allows (00_scope.md R6). -/

namespace Sys2Proof

/-- A register index is 0 to 7 (R50). -/
abbrev regInRange (n : Byte) : Prop := n.toNat ≤ 7

/-- Every register index the instruction names is in range (R50). -/
abbrev Instr.registersInRange (i : Instr) : Prop := ∀ n ∈ i.registers, regInRange n

/-- Well formed for parameters `c`: the instruction is in the dispatch table (R62) and its register indices are in
range (R50). -/
abbrev Instr.WellFormed (c : Config) (i : Instr) : Prop :=
  c.dispatched i.mnemonic = true ∧ i.registersInRange

/-- R6: `STACK_FLOOR < SP_INIT`. -/
abbrev Config.floorBelowTop (c : Config) : Prop := c.stackFloor.toNat < c.spInit.toNat

/-- R6, R47: bits [7:6] of every dispatched opcode are the instruction's operand count. -/
abbrev Config.countsMatch (c : Config) : Prop :=
  ∀ m ∈ Mnemonic.all, c.dispatched m = true → (c.opcodes.get m).toNat / 64 = m.operandCount

/-- R6: the twelve or thirteen opcode values are distinct. -/
abbrev Config.opcodesDistinct (c : Config) : Prop :=
  ∀ m ∈ Mnemonic.all, ∀ n ∈ Mnemonic.all, c.dispatched m = true → c.dispatched n = true →
    c.opcodes.get m = c.opcodes.get n → m = n

/-- The constraints of R6, over the mnemonics that are dispatched (notes/assumptions/16.md). -/
structure Config.WellFormed (c : Config) : Prop where
  floor    : c.floorBelowTop
  counts   : c.countsMatch
  distinct : c.opcodesDistinct

end Sys2Proof
end

