-- ==== Sys2Proof/Decode.lean ====
section
/-! DEFINITION. Decoding and encoding (spec 30_encoding.md, 40_cycle.md R61 to R63). Decode is an exact match of the
whole opcode byte against the dispatch table (R52). -/

namespace Sys2Proof

/-- `AA`, bits 7:6 of the opcode byte: the operand count (R46). -/
def fieldAA (op : Byte) : BitVec 2 := op.extractLsb' 6 2

/-- `B`, bit 5: 1 for an ALU operation (R46); no rule decodes it (R52). -/
def fieldB (op : Byte) : Bool := op.getLsbD 5

/-- `C`, bit 4: 1 for an instruction that can set PC (R46); no rule decodes it (R52). -/
def fieldC (op : Byte) : Bool := op.getLsbD 4

/-- `DDDD`, bits 3:0: the identifier (R46); no rule decodes it (R52). -/
def fieldDDDD (op : Byte) : BitVec 4 := op.extractLsb' 0 4

/-- `len(ir) = ir[7:6] + 1` (R47). -/
def instrLen (op : Byte) : Nat := (fieldAA op).toNat + 1

/-- The dispatch table as a lookup: the mnemonic whose opcode is the byte, or absent (R52, R61 to R63). -/
def dispatch (c : Config) (op : Byte) : Option Mnemonic :=
  Mnemonic.all.find? (fun m => c.dispatched m && c.opcodes.get m == op)

/-- The instruction a mnemonic and the two fetched operand bytes make; operand bytes the format does not use are
ignored (R48, R54). -/
def instrOf (m : Mnemonic) (opA opB : Byte) : Instr :=
  match m with
  | .hlt  => .hlt
  | .ldi  => .ldi opA opB
  | .prn  => .prn opA
  | .add  => .add opA opB
  | .mul  => .mul opA opB
  | .cmp  => .cmp opA opB
  | .and  => .and opA opB
  | .push => .push opA
  | .pop  => .pop opA
  | .call => .call opA
  | .jmp  => .jmp opA
  | .jeq  => .jeq opA
  | .jne  => .jne opA

/-- Why bytes are no instruction. -/
inductive DecodeError where
  /-- There is no opcode byte. Safe: no fetch of the machine gives this (it always has three bytes). -/
  | noBytes
  /-- The opcode byte is not in the dispatch table (R53). -/
  | invalidOpcode (op : Byte)
  /-- The list ends before the instruction's operand bytes. Safe: no fetch of the machine gives this. -/
  | truncated (op : Byte)
  deriving DecidableEq, Repr

/-- The instruction at the head of a list of bytes, and the bytes after it. Total, rejecting by name. -/
def decode (c : Config) : List Byte → Except DecodeError (Instr × List Byte)
  | [] => .error .noBytes
  | op :: rest =>
    match dispatch c op with
    | none => .error (.invalidOpcode op)
    | some m =>
      match m.operandCount, rest with
      | 0, rest => .ok (instrOf m 0 0, rest)
      | 1, opA :: rest => .ok (instrOf m opA 0, rest)
      | 2, opA :: opB :: rest => .ok (instrOf m opA opB, rest)
      | _, _ => .error (.truncated op)

/-- The operand bytes of an instruction, in the order written (R48, R56). -/
def Instr.operandBytes : Instr → List Byte
  | .hlt => []
  | .ldi r imm => [r, imm]
  | .prn r => [r]
  | .add a b => [a, b]
  | .mul a b => [a, b]
  | .cmp a b => [a, b]
  | .and a b => [a, b]
  | .push r => [r]
  | .pop r => [r]
  | .call r => [r]
  | .jmp r => [r]
  | .jeq r => [r]
  | .jne r => [r]

/-- The bytes of an instruction: its opcode byte followed by its operand bytes (R45, R56). -/
def encode (c : Config) (i : Instr) : List Byte := c.opcodes.get i.mnemonic :: i.operandBytes

/-- The three bytes, from the lowest address, of a table word: byte `k` is bits `8k + 7 .. 8k` of `w`, and every bit
from `nbits` on is 0. Three is the longest instruction (R45). -/
def wordBytes (nbits w : Nat) : Byte × Byte × Byte :=
  let v := w % 2 ^ nbits
  (BitVec.ofNat 8 v, BitVec.ofNat 8 (v / 256), BitVec.ofNat 8 (v / 65536))

/-- The instruction the decoder reads from a word of spec/opcode_table.json, under the parameters whose dispatch table
has every row of that file (notes/assumptions/6.md). -/
def decodeTableWord (nbits w : Nat) : Option Instr :=
  match decode andConfig [(wordBytes nbits w).1, (wordBytes nbits w).2.1, (wordBytes nbits w).2.2] with
  | .ok (i, _) => some i
  | .error _ => none

end Sys2Proof
end

