-- ==== Sys2Proof/Machine/State.lean ====
section
/-! DEFINITION. The state of the CA1 CORE (spec 10_state.md R11), as plain data, and its value at reset (R24). -/

namespace Sys2Proof.Machine

/-- The flag register: three independent Booleans (R20). `e` is EQ, `g` is GT, `l` is LT. -/
structure Flags where
  e : Bool
  g : Bool
  l : Bool
  deriving DecidableEq, Repr

/-- The run status (R25). Codes 6 and 7 are never taken and have no constructor (notes/assumptions/9.md). -/
inductive Status where
  | running          -- code 0
  | halted           -- code 1
  | invalidOpcode    -- code 2
  | invalidRegister  -- code 3
  | stackOverflow    -- code 4
  | stackUnderflow   -- code 5
  deriving DecidableEq, Repr

/-- Memory (20_memory.md R32) as a list of (address, byte) pairs; its canonical form is `Memory.wf`. -/
abbrev Memory := List Host.Cell

/-- What a handler returns to the program-counter controller (00_scope.md R10). -/
inductive ControlFlow where
  | continue
  | jumpTo (t : Addr)
  deriving DecidableEq, Repr

/-- The four conditions an instruction can raise (60_exceptions.md R97), each with its info argument. -/
inductive FaultCause where
  | invalidOpcode (opcode : Byte) (addr : Addr)
  | invalidRegister (n : Byte)
  | stackOverflow (sp : Byte)
  | stackUnderflow (sp : Byte)
  deriving DecidableEq, Repr

/-- The reasons the MODEL stops. There is none: each of the four conditions of R97 is taken as R104 describes it, a
NEXT state whose status holds its code, and a tick in a terminal state is a next state too (R59)
(notes/assumptions/8.md). -/
inductive Fault
  deriving DecidableEq, Repr

/-- The reasons the model gives no meaning. -/
inductive Refusal where
  /-- Raised by an arm of `exec` whose instruction has no meaning yet. No arm does. Safe: a stop proves nothing. -/
  | notModelled (mnemonic : String)
  deriving DecidableEq, Repr

/-- The state of the CORE (R11), the memory it refers to (R31) and its parameters (00_scope.md R6). -/
structure State where
  /-- `x[0..7]`; `x[7]` is SP (R12, R14). -/
  regs   : Vector Byte 8
  /-- The program counter (R16). -/
  pc     : Addr
  /-- The instruction register: the opcode byte fetched last (R19). -/
  ir     : Byte
  /-- The flag register (R20). -/
  fl     : Flags
  /-- The run status (R25). -/
  status : Status
  /-- The output sequence, oldest first (R27). -/
  out    : List Byte
  /-- The memory, owned by the host (R31, R32). -/
  mem    : Memory
  /-- The parameters the machine was built with; no step changes them (notes/assumptions/1.md). -/
  cfg    : Config
  deriving DecidableEq, Repr

/-- The CORE's registers at reset, over memory `m` and parameters `c` (R24, 70_reset_and_hazards.md R116): all zero
except SP, status RUNNING, no output. -/
def State.atReset (c : Config) (m : Memory) : State :=
  { regs := #v[0, 0, 0, 0, 0, 0, 0, c.spInit], pc := 0, ir := 0, fl := ⟨false, false, false⟩
    status := .running, out := [], mem := m, cfg := c }

/-- The machine right after reset, with the defaults of R6 and no byte of memory listed (R116). -/
def State.reset : State := State.atReset defaultConfig []

end Sys2Proof.Machine
end

