-- ==== Sys2Proof/Machine/Flags.lean ====
section
/-! DEFINITION. The flag computation of CMP (spec 41_alu.md R76, R77), and the bit layouts of FL and status
(10_state.md R20, R25). -/

namespace Sys2Proof.Machine

/-- CMP's flags for `u = x[a]`, `v = x[b]`, compared as unsigned integers; all three are written (R76, R77). -/
def compareFlags (u v : Byte) : Flags :=
  { e := u.toNat == v.toNat, g := decide (u.toNat > v.toNat), l := decide (u.toNat < v.toNat) }

/-- FL seen as a byte: `0b00000LGE`, bits 7:3 read as 0 (R20). Only the host sees it. -/
def Flags.toByte (f : Flags) : Byte :=
  BitVec.ofNat 8 (f.e.toNat + 2 * f.g.toNat + 4 * f.l.toNat)

/-- The 3-bit code of a status (R25). -/
def Status.code : Status → BitVec 3
  | .running => 0
  | .halted => 1
  | .invalidOpcode => 2
  | .invalidRegister => 3
  | .stackOverflow => 4
  | .stackUnderflow => 5

/-- Codes 2 to 5 are faults (R25). -/
def Status.isFault (st : Status) : Bool := decide (2 ≤ st.code.toNat)

end Sys2Proof.Machine
end

