-- ==== Sys2Proof/Machine/Ops.lean ====
section
/-! DEFINITION. The named operations over memory, registers, output, program counter, stack pointer and status that
the meanings share (spec 00_scope.md R8 to R10, 20_memory.md, 40_cycle.md R60 to R68, 43_stack.md R83, R84,
60_exceptions.md R104). -/

namespace Sys2Proof.Machine

/-! ## Memory -/

/-- What an address that memory does not list reads as. DESIGN CHOICE, unsafe (notes/assumptions/5.md): the spec leaves
the image `M0` open (R6), and every image is some list. -/
def unlistedByte : Byte := 0

/-- The canonical form: addresses strictly rising and inside the 256-byte space (R32), no entry equal to what an
unlisted address reads as. -/
abbrev Memory.wf (m : Memory) : Prop :=
  (m.map Prod.fst).Pairwise (· < ·) ∧ ∀ c ∈ m, c.1 < 256 ∧ c.2 ≠ unlistedByte

/-- `MemRead(a, 1)` (R8, R31). -/
def Memory.read : Memory → Addr → Byte
  | [], _ => unlistedByte
  | (k, v) :: m, a => if k = a.toNat then v else Memory.read m a

/-- The memory with `v` at address `a` put before the cells of `m`, or `m` itself where `v` is what an unlisted
address reads as. -/
def Memory.put (a : Addr) (v : Byte) (m : Memory) : Memory :=
  if v = unlistedByte then m else (a.toNat, v) :: m

/-- `MemWrite(a, 1, v)` (R8, R31): exactly one byte changes (R36), and the canonical form is kept. -/
def Memory.write : Memory → Addr → Byte → Memory
  | [], a, v => Memory.put a v []
  | (k, w) :: m, a, v =>
    if a.toNat < k then Memory.put a v ((k, w) :: m)
    else if a.toNat = k then Memory.put a v m
    else (k, w) :: Memory.write m a v

/-! ## Registers and output -/

/-- `x[i]` (R8). -/
def State.reg (s : State) (i : RegIdx) : Byte := s.regs[i]

/-- `x[i] <- v` (R8); a register stores 8 bits (R15). -/
def State.setReg (s : State) (i : RegIdx) (v : Byte) : State := { s with regs := s.regs.set i v }

/-- `SP_INDEX` (R5, R14). -/
def spIndex : RegIdx := 7

/-- `sp`, another name for `x[7]` (R8, R14). -/
def State.sp (s : State) : Byte := s.reg spIndex

/-- `sp <- v`. -/
def State.setSp (s : State) (v : Byte) : State := s.setReg spIndex v

/-- `fl <- f`, all three flags at once (R21). -/
def State.setFlags (s : State) (f : Flags) : State := { s with fl := f }

/-- `Out(v)`: append the value to the output sequence (R27). -/
def State.emit (s : State) (v : Byte) : State := { s with out := s.out ++ [v] }

/-- `MemWrite(a, 1, v)` on the state's memory. -/
def State.store (s : State) (a : Addr) (v : Byte) : State := { s with mem := s.mem.write a v }

/-- `status <- st`. -/
def State.setStatus (s : State) (st : Status) : State := { s with status := st }

/-! ## Faults -/

/-- The status code a fault leaves (R25, R97). -/
def FaultCause.status : FaultCause → Status
  | .invalidOpcode _ _ => .invalidOpcode
  | .invalidRegister _ => .invalidRegister
  | .stackOverflow _ => .stackOverflow
  | .stackUnderflow _ => .stackUnderflow

/-- `raise E(info)`: status takes the code of E; `ir` keeps the fetched opcode byte, `pc` the instruction's address,
and nothing else is written (R9, R102, R104). There is no return from it but reset (R105). -/
def takeFault (e : FaultCause) (s : State) : State := s.setStatus e.status

/-- The outcome of a handler that raises. -/
def raise (e : FaultCause) (s : State) : Host.Outcome State Fault Refusal := .next (takeFault e s)

/-! ## Program-counter controller -/

/-- The default advance: `(pc + ir[7:6] + 1) mod 256` (R66). -/
def State.advancedPc (s : State) : Addr := s.pc + BitVec.ofNat 8 (instrLen s.ir)

/-- The next pc for what a handler returned (R66, R67). -/
def State.nextPc (s : State) : ControlFlow → Addr
  | .continue => s.advancedPc
  | .jumpTo t => t

/-- The end of a tick whose handler did not raise: the PC update (R58 lines 6 and 7). -/
def finish (cf : ControlFlow) (s : State) : Host.Outcome State Fault Refusal :=
  .next { s with pc := s.nextPc cf }

/-! ## Stack-pointer manager -/

/-- `PushSlot()`: the bound check, then the decrement; the caller gets the address to write and the state after
(R83, R85). -/
def pushSlot (s : State) (k : Addr → State → Host.Outcome State Fault Refusal) : Host.Outcome State Fault Refusal :=
  if s.sp.toNat ≤ s.cfg.stackFloor.toNat then raise (.stackOverflow s.sp) s
  else k (s.sp - 1) (s.setSp (s.sp - 1))

/-- `PopSlot()`: the bound check, the read, then the increment; the caller gets the byte and the state after
(R84, R86). -/
def popSlot (s : State) (k : Byte → State → Host.Outcome State Fault Refusal) : Host.Outcome State Fault Refusal :=
  if s.cfg.spInit.toNat ≤ s.sp.toNat then raise (.stackUnderflow s.sp) s
  else k (s.mem.read s.sp) (s.setSp (s.sp + 1))

/-! ## Fetch -/

/-- The bytes a tick can fetch: the opcode at `pc`, operandA and operandB after it, mod 256 (R60, R64). -/
def State.fetchBytes (s : State) : List Byte :=
  [s.mem.read s.pc, s.mem.read (s.pc + 1), s.mem.read (s.pc + 2)]

/-- The fetch: `ir <- MemRead(pc, 1)`; `pc` is not changed (R60). -/
def State.fetchOpcode (s : State) : State := { s with ir := s.mem.read s.pc }

/-- The instruction the fetch-decode unit makes of the bytes at `pc`, or why there is none (R58 lines 2 to 4). -/
def State.fetched (s : State) : Except DecodeError Instr :=
  (decode s.cfg s.fetchBytes).map Prod.fst

/-- The parameters under which opcode byte `op` is dispatched where only `AND_DISPATCHED` keeps it out
(R62; notes/assumptions/6.md). -/
def enableAnd (c : Config) (op : Byte) : Config :=
  if dispatch c op = none ∧ op = c.opcodes.and then { c with andDispatched := true } else c

end Sys2Proof.Machine
end

