-- ==== Sys2Proof/Machine/Operands.lean ====
section
/-! DEFINITION. The operand forms (spec 30_encoding.md R48 to R50): a register index, checked before the instruction's
first effect; a pair of them, operandA checked first. An immediate is its raw byte and needs no operation. -/

namespace Sys2Proof.Machine

/-- `check_reg(n)`, then the rest of the handler with the register named: an index above 7 raises InvalidRegister
(R50, R99). -/
def withReg (n : Byte) (s : State) (k : RegIdx → Host.Outcome State Fault Refusal) :
    Host.Outcome State Fault Refusal :=
  if h : n.toNat ≤ 7 then k ⟨n.toNat, Nat.lt_succ_of_le h⟩ else raise (.invalidRegister n) s

/-- `check_reg(a); check_reg(b)`, operandA before operandB (R103). -/
def withRegs (a b : Byte) (s : State) (k : RegIdx → RegIdx → Host.Outcome State Fault Refusal) :
    Host.Outcome State Fault Refusal :=
  withReg a s fun i => withReg b s fun j => k i j

end Sys2Proof.Machine
end

