-- ==== Sys2Proof/Machine/Alu.lean ====
section
/-! DEFINITION. The ALU and the meanings of ADD, MUL, CMP and AND (spec 41_alu.md). -/

namespace Sys2Proof.Machine

/-- The ALU's operation select (R71). `unknown` stands for any select outside the four, which no handler passes
(R73; notes/assumptions/17.md). -/
inductive AluOp where
  | add | mul | and | cmp | unknown
  deriving DecidableEq, Repr

/-- `apply(op, i, j)`: ADD, MUL and AND write `x[i]` and leave FL; CMP writes FL and leaves the registers; both
operands are read before the write (R71, R72). An unknown operation changes nothing (R73). -/
def aluApply (op : AluOp) (i j : RegIdx) (s : State) : State :=
  match op with
  | .add => s.setReg i (s.reg i + s.reg j)
  | .mul => s.setReg i (s.reg i * s.reg j)
  | .and => s.setReg i (s.reg i &&& s.reg j)
  | .cmp => s.setFlags (compareFlags (s.reg i) (s.reg j))
  | .unknown => s

/-- `ADD Ra, Rb` (R74). -/
def execAdd (a b : Byte) (s : State) : Host.Outcome State Fault Refusal :=
  withRegs a b s fun i j => finish .continue (aluApply .add i j s)

/-- `MUL Ra, Rb` (R75). -/
def execMul (a b : Byte) (s : State) : Host.Outcome State Fault Refusal :=
  withRegs a b s fun i j => finish .continue (aluApply .mul i j s)

/-- `CMP Ra, Rb` (R76). -/
def execCmp (a b : Byte) (s : State) : Host.Outcome State Fault Refusal :=
  withRegs a b s fun i j => finish .continue (aluApply .cmp i j s)

/-- `AND Ra, Rb` (R78): the instruction exists only when `AND_DISPATCHED` is true. Where it is false the step's decode
already raises InvalidOpcode, and so does this meaning (notes/assumptions/15.md). -/
def execAnd (a b : Byte) (s : State) : Host.Outcome State Fault Refusal :=
  if s.cfg.andDispatched then withRegs a b s fun i j => finish .continue (aluApply .and i j s)
  else raise (.invalidOpcode s.ir s.pc) s

end Sys2Proof.Machine
end

