-- ==== Sys2Proof/Machine/Basic.lean ====
section
/-! DEFINITION. The meanings of HLT, LDI and PRN (spec 42_basic.md). -/

namespace Sys2Proof.Machine

/-- `HLT` (R80): `status <- HALTED`, and the default advance applies. -/
def execHlt (s : State) : Host.Outcome State Fault Refusal := finish .continue (s.setStatus .halted)

/-- `LDI Rr, imm` (R81): the immediate is the 8-bit value itself. -/
def execLdi (r imm : Byte) (s : State) : Host.Outcome State Fault Refusal :=
  withReg r s fun i => finish .continue (s.setReg i imm)

/-- `PRN Rr` (R82): one output event, and no other change but the PC advance (C3). -/
def execPrn (r : Byte) (s : State) : Host.Outcome State Fault Refusal :=
  withReg r s fun i => finish .continue (s.emit (s.reg i))

end Sys2Proof.Machine
end

