-- ==== Sys2Proof/Machine/Control.lean ====
section
/-! DEFINITION. The meanings of CALL, JMP, JEQ and JNE (spec 44_control.md). -/

namespace Sys2Proof.Machine

/-- CALL's return address: the address of the byte after its two bytes, mod 256 (R90). -/
def State.returnAddr (s : State) : Addr := s.pc + 2

/-- `CALL Rr` (R90): the target is read before the push. -/
def execCall (r : Byte) (s : State) : Host.Outcome State Fault Refusal :=
  withReg r s fun i => pushSlot s fun addr t => finish (.jumpTo (s.reg i)) (t.store addr s.returnAddr)

/-- `JMP Rr` (R91). -/
def execJmp (r : Byte) (s : State) : Host.Outcome State Fault Refusal :=
  withReg r s fun i => finish (.jumpTo (s.reg i)) s

/-- `JEQ Rr` (R92): jump if `fl.E` = 1; the index is checked either way (R50). -/
def execJeq (r : Byte) (s : State) : Host.Outcome State Fault Refusal :=
  withReg r s fun i => finish (if s.fl.e then .jumpTo (s.reg i) else .continue) s

/-- `JNE Rr` (R93): jump if `fl.E` = 0; the index is checked either way (R50). -/
def execJne (r : Byte) (s : State) : Host.Outcome State Fault Refusal :=
  withReg r s fun i => finish (if s.fl.e then .continue else .jumpTo (s.reg i)) s

end Sys2Proof.Machine
end

