-- ==== Sys2Proof/Machine/Stack.lean ====
section
/-! DEFINITION. The meanings of PUSH and POP, and the shape of the stack (spec 43_stack.md). -/

namespace Sys2Proof.Machine

/-- `PUSH Rr` (R87): the value pushed is `x[r]` as it stood before the decrement. -/
def execPush (r : Byte) (s : State) : Host.Outcome State Fault Refusal :=
  withReg r s fun i => pushSlot s fun addr t => finish .continue (t.store addr (s.reg i))

/-- `POP Rr` (R88): SP is incremented first, then the popped value is written to `x[r]`. -/
def execPop (r : Byte) (s : State) : Host.Outcome State Fault Refusal :=
  withReg r s fun i => popSlot s fun v t => finish .continue (t.setReg i v)

/-- The stack is empty exactly when `sp = SP_INIT` (R89). -/
def State.stackEmpty (s : State) : Bool := s.sp == s.cfg.spInit

/-- The depth of the stack in bytes, `SP_INIT - sp` (R89). DESIGN CHOICE (notes/assumptions/28.md): where `sp > SP_INIT`
the spec gives no depth, and this is 0. -/
def State.stackDepth (s : State) : Nat := s.cfg.spInit.toNat - s.sp.toNat

/-- The bytes at `sp` to `SP_INIT - 1`, the newest first (R89). DESIGN CHOICE (notes/assumptions/28.md): where
`sp > SP_INIT` the spec gives no contents, and this is `[]`, although `stackEmpty` is false there. -/
def State.stackContents (s : State) : List Byte :=
  (List.range s.stackDepth).map fun k => s.mem.read (s.sp + BitVec.ofNat 8 k)

end Sys2Proof.Machine
end

