-- ==== Sys2Proof/Machine/Step.lean ====
section
/-! DEFINITION. One tick (spec 40_cycle.md R58, R59), and how an instruction is put where the next tick fetches it. -/

namespace Sys2Proof.Machine

/-- R58: a tick in a terminal state changes nothing (R59); otherwise fetch, decode, and run the handler, whose meaning
ends with the PC update. An opcode byte that is not in the dispatch table raises InvalidOpcode (R61). -/
def step (s : State) : Host.Outcome State Fault Refusal :=
  if s.status = .running then
    match s.fetched with
    | .error _ => raise (.invalidOpcode (s.mem.read s.pc) s.pc) s.fetchOpcode
    | .ok i => exec i s.fetchOpcode
  else .next s

/-- The state in which the next tick runs exactly the instruction of a table word: its three bytes at `pc`, `pc + 1`
and `pc + 2`, status RUNNING (without which no tick fetches, R59), and `AND_DISPATCHED` true if the word is AND's
(R62). It stands for the loader, which is outside the CORE (00_scope.md R4 b; notes/assumptions/7.md). -/
def State.withFetchWord (s : State) (nbits w : Nat) : State :=
  { s with
    mem := ((s.mem.write s.pc (wordBytes nbits w).1).write (s.pc + 1) (wordBytes nbits w).2.1).write (s.pc + 2)
      (wordBytes nbits w).2.2
    status := .running
    cfg := enableAnd s.cfg (wordBytes nbits w).1 }

end Sys2Proof.Machine
end

