-- ==== Sys2Proof/Machine/Asm.lean ====
section
/-! DEFINITION. The assembly syntax (spec 30_encoding.md R56), as lists of characters: how a statement is written, how
one is read, and the bytes of a listing. There are no pseudo-instructions (R57). Not semantic: no rule of the machine
depends on it (D27; notes/assumptions/18.md). -/

namespace Sys2Proof.Machine

/-- How a mnemonic is written (R56). -/
def Mnemonic.chars : Mnemonic → List Char
  | .hlt => ['H', 'L', 'T']
  | .ldi => ['L', 'D', 'I']
  | .prn => ['P', 'R', 'N']
  | .add => ['A', 'D', 'D']
  | .mul => ['M', 'U', 'L']
  | .cmp => ['C', 'M', 'P']
  | .and => ['A', 'N', 'D']
  | .push => ['P', 'U', 'S', 'H']
  | .pop => ['P', 'O', 'P']
  | .call => ['C', 'A', 'L', 'L']
  | .jmp => ['J', 'M', 'P']
  | .jeq => ['J', 'E', 'Q']
  | .jne => ['J', 'N', 'E']

/-- The character of a decimal digit. -/
def digitChar (n : Nat) : Char := Char.ofNat (48 + n)

/-- A byte as an unsigned decimal number (R56). -/
def decimalChars (v : Byte) : List Char :=
  let n := v.toNat
  if n < 10 then [digitChar n]
  else if n < 100 then [digitChar (n / 10), digitChar (n % 10)]
  else [digitChar (n / 100), digitChar (n / 10 % 10), digitChar (n % 10)]

/-- A register operand, `R0` to `R7` (R56); an index above 7 has no spelling and is written as its number. -/
def regChars (n : Byte) : List Char := 'R' :: decimalChars n

/-- An instruction as a statement, `LDI R0,5` (R56). -/
def printInstr (i : Instr) : List Char :=
  Mnemonic.chars i.mnemonic ++
    match i with
    | .hlt => []
    | .ldi r imm => ' ' :: regChars r ++ ',' :: decimalChars imm
    | .add a b | .mul a b | .cmp a b | .and a b => ' ' :: regChars a ++ ',' :: regChars b
    | .prn r | .push r | .pop r | .call r | .jmp r | .jeq r | .jne r => ' ' :: regChars r

/-- The value of a decimal digit. -/
def decimalDigit (c : Char) : Option Nat := if '0' ≤ c ∧ c ≤ '9' then some (c.toNat - 48) else none

/-- The value of a hexadecimal digit, of either case. -/
def hexDigit (c : Char) : Option Nat :=
  if '0' ≤ c ∧ c ≤ '9' then some (c.toNat - 48)
  else if 'A' ≤ c ∧ c ≤ 'F' then some (c.toNat - 55)
  else if 'a' ≤ c ∧ c ≤ 'f' then some (c.toNat - 87)
  else none

/-- The number that digits spell in a base, after a value already read. -/
def digitsValue (base : Nat) (digit : Char → Option Nat) : Nat → List Char → Option Nat
  | acc, [] => some acc
  | acc, c :: cs =>
    match digit c with
    | none => none
    | some d => digitsValue base digit (base * acc + d) cs

/-- A value 0 to 255 as a byte. -/
def byteOfNat (n : Nat) : Option Byte := if n ≤ 255 then some (BitVec.ofNat 8 n) else none

/-- An immediate: an unsigned decimal number 0 to 255, or `0x` followed by hex digits (R56). -/
def parseImm : List Char → Option Byte
  | [] => none
  | '0' :: 'x' :: [] => none
  | '0' :: 'x' :: cs => (digitsValue 16 hexDigit 0 cs).bind byteOfNat
  | cs => (digitsValue 10 decimalDigit 0 cs).bind byteOfNat

/-- A register operand, `R0` to `R7` (R56). -/
def parseReg : List Char → Option Byte
  | ['R', c] =>
    match decimalDigit c with
    | none => none
    | some d => if d ≤ 7 then some (BitVec.ofNat 8 d) else none
  | _ => none

/-- The characters without the spaces at either end. -/
def trimSpaces (cs : List Char) : List Char :=
  ((cs.dropWhile (· == ' ')).reverse.dropWhile (· == ' ')).reverse

/-- The pieces of a text between the occurrences of a separator. -/
def splitAtChar (sep : Char) : List Char → List (List Char)
  | [] => [[]]
  | c :: cs =>
    if c == sep then [] :: splitAtChar sep cs
    else
      match splitAtChar sep cs with
      | [] => [[c]]
      | p :: ps => (c :: p) :: ps

/-- The operands of a statement, each without the spaces around it. -/
def operandTexts (cs : List Char) : List (List Char) :=
  match trimSpaces cs with
  | [] => []
  | c :: cs => (splitAtChar ',' (c :: cs)).map trimSpaces

/-- A statement: the mnemonic, then its operands separated by a comma (R56). -/
def parseInstr (text : List Char) : Option Instr :=
  let cs := trimSpaces text
  match Mnemonic.all.find? (fun m => Mnemonic.chars m == cs.takeWhile (· != ' ')) with
  | none => none
  | some m =>
    match m.format, operandTexts (cs.dropWhile (· != ' ')) with
    | .f0, [] => some (instrOf m 0 0)
    | .f1r, [r] => (parseReg r).map fun n => instrOf m n 0
    | .f2rr, [a, b] => (parseReg a).bind fun x => (parseReg b).map fun y => instrOf m x y
    | .f2ri, [r, v] => (parseReg r).bind fun n => (parseImm v).map fun imm => instrOf m n imm
    | _, _ => none

/-- The bytes of a listing, its statements separated by `;` (R56). -/
def assemble (c : Config) (listing : List Char) : Option (List Byte) :=
  ((splitAtChar ';' listing).mapM parseInstr).map fun is => (is.map (encode c)).flatten

end Sys2Proof.Machine
end

