-- ==== Sys2Proof/Machine/HostPort.lean ====
section
/-! DEFINITION. What the outside world sees of the CORE and can do to it (spec 10_state.md R29, R30): the reset input,
the loader's `poke`, the status, pc and ir outputs, the accesses a tick makes at the memory port (20_memory.md R39),
and the information of a fault (60_exceptions.md R102). None of these is a move of the step. -/

namespace Sys2Proof.Machine

/-- The `reset` input (70_reset_and_hazards.md R116): every register of the CORE at its reset value, memory and
parameters as they were. -/
def resetInput (s : State) : State := State.atReset s.cfg s.mem

/-- `poke(a, v)` (R29): one byte of memory, no CORE state. The host may use it only between reset and the first tick
(notes/assumptions/13.md). -/
def poke (a : Addr) (v : Byte) (s : State) : State := s.store a v

/-- The loader's pokes, in order (R119 step 2). -/
def pokeAll (ps : List (Addr × Byte)) (s : State) : State := ps.foldl (fun t p => poke p.1 p.2 t) s

/-- The `status` port, 3 bits (R25, R30). -/
def State.statusOut (s : State) : BitVec 3 := s.status.code

/-- The `pc_out` port (R30). -/
def State.pcOut (s : State) : Addr := s.pc

/-- The `ir_out` port (R30). -/
def State.irOut (s : State) : Byte := s.ir

/-- One transaction at the memory port (R30, R31). -/
inductive Access where
  | read (a : Addr) (v : Byte)
  | write (a : Addr) (v : Byte)
  deriving DecidableEq, Repr

/-- The handler's own access, at most one, and none if it faults (R39 (3)). -/
def handlerAccesses (i : Instr) (s : State) : List Access :=
  match i with
  | .push r =>
    if h : r.toNat ≤ 7 then
      if s.sp.toNat ≤ s.cfg.stackFloor.toNat then []
      else [.write (s.sp - 1) (s.reg ⟨r.toNat, Nat.lt_succ_of_le h⟩)]
    else []
  | .call r =>
    if r.toNat ≤ 7 then
      if s.sp.toNat ≤ s.cfg.stackFloor.toNat then [] else [.write (s.sp - 1) s.returnAddr]
    else []
  | .pop r =>
    if r.toNat ≤ 7 then
      if s.cfg.spInit.toNat ≤ s.sp.toNat then [] else [.read s.sp (s.mem.read s.sp)]
    else []
  | .hlt | .ldi _ _ | .prn _ | .add _ _ | .mul _ _ | .cmp _ _ | .and _ _ | .jmp _ | .jeq _ | .jne _ => []

/-- The accesses of one tick, in order (R39): the opcode read; after a valid opcode the two operand reads; then the
handler's own. A tick in a terminal state makes none (R59), an invalid opcode only the first (R61). -/
def tickAccesses (s : State) : List Access :=
  if s.status = .running then
    .read s.pc (s.mem.read s.pc) ::
      match s.fetched with
      | .error _ => []
      | .ok i =>
        .read (s.pc + 1) (s.mem.read (s.pc + 1)) :: .read (s.pc + 2) (s.mem.read (s.pc + 2)) ::
          handlerAccesses i s.fetchOpcode
  else []

/-- What a list of accesses does to a memory, one at a time (R38). -/
def Memory.apply (m : Memory) (as : List Access) : Memory :=
  as.foldl (fun m x => match x with
    | .read _ _ => m
    | .write a v => m.write a v) m

/-- What the host can tell of a fault from `status`, `pc`, `ir`, R7 and the operand bytes in memory (R102): the bad
register index is the operand byte at `pc + 1`, or the one at `pc + 2` if that one is in range. -/
def faultReport (s : State) : Option FaultCause :=
  match s.status with
  | .running => none
  | .halted => none
  | .invalidOpcode => some (.invalidOpcode s.ir s.pc)
  | .invalidRegister =>
    some (.invalidRegister
      (if (s.mem.read (s.pc + 1)).toNat ≤ 7 then s.mem.read (s.pc + 2) else s.mem.read (s.pc + 1)))
  | .stackOverflow => some (.stackOverflow s.sp)
  | .stackUnderflow => some (.stackUnderflow s.sp)

end Sys2Proof.Machine
end

