-- ==== Sys2Proof/Safety.lean ====
section
/-! DEFINITION. The terms claims use: what a step may leave, the end of a run (spec 60_exceptions.md R115), and the
invariants of the machine. -/

namespace Sys2Proof.Machine

/-- The state after `n` ticks, or none if the model stopped. -/
def State.afterTicks (s : State) (n : Nat) : Option State :=
  match Sys2Proof.core.run n s with
  | .next t => some t
  | .fault _ => none
  | .refused _ => none

/-- The run has ended: `status != RUNNING` (R115). -/
def State.ended (s : State) : Prop := s.status ≠ .running

/-- A normal end (R115). -/
def State.normalEnd (s : State) : Prop := s.status = .halted

/-- A fault end; a faulted state is never a normal end (R115). -/
def State.faultEnd (s : State) : Prop := s.status.isFault = true

/-- The run from `s` ends at tick `n`, in `t`: the first tick after which `status != RUNNING` (R115). -/
def EndsAt (s : State) (n : Nat) (t : State) : Prop :=
  s.afterTicks n = some t ∧ t.ended ∧ ∀ k u, k < n → s.afterTicks k = some u → ¬ u.ended

/-- A hang: a run that never ends (R115). -/
def Hangs (s : State) : Prop := ∀ n t, s.afterTicks n = some t → t.status = .running

/-- The bytes at `pc` decode to `i`: the opcode at `pc`, the operand bytes after it, addresses mod 256 (40_cycle.md R58
lines 2 to 4). -/
def State.decodesTo (s : State) (i : Instr) : Prop :=
  ∃ rest, decode s.cfg [s.mem.read s.pc, s.mem.read (s.pc + 1), s.mem.read (s.pc + 2)] = .ok (i, rest)

/-- At most one of E, G and L is set: what reset and every CMP leave (41_alu.md R77). -/
def Flags.exclusive (f : Flags) : Prop :=
  ¬ (f.e = true ∧ f.g = true) ∧ ¬ (f.e = true ∧ f.l = true) ∧ ¬ (f.g = true ∧ f.l = true)

/-- The invariant of the machine: memory is canonical, the parameters are ones R6 allows, and FL is 0x00 or has one
bit set. -/
structure State.Inv (s : State) : Prop where
  memory : s.mem.wf
  params : s.cfg.WellFormed
  flags  : s.fl.exclusive

end Sys2Proof.Machine
end

