-- ==== Sys2Proof/Certificates/Slice0/Obligations.lean ====
section
/-! DEFINITION. The statements for the provers. Each docstring names the rules of spec/ it formalises, and any clause
that rests on a choice of the model (a log entry, notes/assumptions/<n>.md) or on one of the spec's own decisions
(D<n> of 92_eei_decisions.md). In a conclusion `exec i s = .next { s with … }` every field not listed is unchanged.
The default advance `pc + ir[7:6] + 1` of R66 is written `s.pc + (s.ir >>> 6) + 1`. `regByte k` is the operand byte
that names register `k`. -/

open Sys2Proof Sys2Proof.Machine

/-! ## Reset -/

/-- R116, R24, R117: what the reset input leaves, the state right after reset with the defaults, and that the first tick
after reset fetches at address 0x00. That there is a reset input, and its values of status and output, are D23; 0xF4 is
D7 (notes/assumptions/3.md). -/
def Obligations.ResetLeavesTheStatedValues : Prop :=
  (∀ s : State,
    (∀ i : RegIdx, i ≠ 7 → (resetInput s).reg i = 0x00) ∧ (resetInput s).reg 7 = s.cfg.spInit ∧
    (resetInput s).pc = 0x00 ∧ (resetInput s).ir = 0x00 ∧
    (resetInput s).fl = { e := false, g := false, l := false } ∧ (resetInput s).fl.toByte = 0x00 ∧
    (resetInput s).status = .running ∧ (resetInput s).statusOut = 0 ∧ (resetInput s).out = [] ∧
    (∀ op, dispatch (resetInput s).cfg op = dispatch s.cfg op) ∧ (resetInput s).mem = s.mem) ∧
  resetInput State.reset = State.reset ∧ State.reset.reg 7 = 0xF4 ∧
  ∀ s t : State, step (resetInput s) = .next t →
    (tickAccesses (resetInput s)).head? = some (.read 0x00 (s.mem.read 0x00)) ∧ t.ir = s.mem.read 0x00

/-- The model's invariant (State.Inv) holds after the reset input, over any canonical memory and any parameters R6
allows, and at State.reset. -/
def Obligations.ResetMeetsTheInvariant : Prop :=
  (∀ s : State, s.mem.wf → s.cfg.WellFormed → (resetInput s).Inv) ∧ State.reset.Inv

/-! ## The tick -/

/-- Every tick keeps the invariant: memory canonical, parameters as R6 allows, at most one flag set. -/
def Obligations.StepKeepsTheInvariant : Prop :=
  ∀ s t : State, s.Inv → step s = .next t → t.Inv

/-- Every meaning answers a next state, whatever the operands and the state: the model never stops
(notes/assumptions/8.md: the faults of R97 are next states). -/
def Obligations.ExecAlwaysAnswersNext : Prop :=
  ∀ (i : Instr) (s : State), ∃ t, exec i s = .next t

/-- A run of any length from any state goes on, keeps the invariant, and never changes the parameters. That it goes on is
the model's reading (notes/assumptions/8.md: the faults of R97 and the ticks after the end are next states) and rests on
the spec's decision D24: R115 says a run ends at the first status that is not RUNNING, and the ticks after that do
nothing. -/
def Obligations.RunsGoOnAndKeepTheInvariant : Prop :=
  ∀ (n : Nat) (s : State), ∃ t, s.afterTicks n = some t ∧ (s.Inv → t.Inv) ∧ t.cfg = s.cfg

/-- R58 lines 2 to 5: when the bytes at `pc` decode to `i`, a tick is `exec i` at the state whose `ir` holds the
opcode byte. The PC update of lines 6 and 7 is the end of `exec`. -/
def Obligations.StepRunsTheDecodedInstruction : Prop :=
  ∀ (s : State) (i : Instr), s.status = .running → s.decodesTo i →
    step s = exec i { s with ir := s.mem.read s.pc }

/-- R61, R98 (that no operand is read is D31): an opcode byte with no dispatch-table entry. No operand byte is read,
no handler runs, `pc` stays, and the host can tell the byte and the address. Byte 0x00 has no entry in the default
table. -/
def Obligations.InvalidOpcodeHaltsAtItsAddress : Prop :=
  (∀ s : State, s.status = .running → dispatch s.cfg (s.mem.read s.pc) = none →
    step s = .next { s with ir := s.mem.read s.pc, status := .invalidOpcode } ∧
    tickAccesses s = [.read s.pc (s.mem.read s.pc)] ∧
    faultReport { s with ir := s.mem.read s.pc, status := .invalidOpcode } =
      some (.invalidOpcode (s.mem.read s.pc) s.pc)) ∧
  dispatch defaultConfig 0x00 = none ∧ dispatch andConfig 0x00 = none

/-- R59 (the spec's decision D24): a tick in a terminal state makes no access and changes no state, and so does every
later one. -/
def Obligations.TerminalStatesAreFinal : Prop :=
  ∀ s : State, s.status ≠ .running →
    step s = .next s ∧ tickAccesses s = [] ∧ ∀ n, s.afterTicks n = some s

/-! ## Decoding -/

/-- R62, R63: the dispatch table maps a byte to a mnemonic exactly when the mnemonic is dispatched and the byte is its
opcode; AND exactly when `AND_DISPATCHED` is true; the handler a tick runs is that of the mnemonic; no tick changes the
table. -/
def Obligations.DispatchIsAnExactMatch : Prop :=
  (∀ (c : Config) (op : Byte) (m : Mnemonic), c.opcodesDistinct →
    (dispatch c op = some m ↔ (m = .and → c.andDispatched = true) ∧ c.opcodes.get m = op)) ∧
  (∀ (s : State) (m : Mnemonic), s.status = .running → dispatch s.cfg (s.mem.read s.pc) = some m →
    ∃ i, i.mnemonic = m ∧ s.decodesTo i ∧ step s = exec i { s with ir := s.mem.read s.pc }) ∧
  ∀ (s t : State) (op : Byte), step s = .next t → dispatch t.cfg op = dispatch s.cfg op

/-- R53: the illegal bytes of the default map (D4, D5), 244 of them, or 243 with AND, among them 0x00, 0xA8 without
AND, 0x11 and every byte from 0xC0; executing an illegal byte raises InvalidOpcode. -/
def Obligations.UnlistedBytesAreIllegal : Prop :=
  ((List.range 256).filter fun n => (dispatch defaultConfig (BitVec.ofNat 8 n)).isNone).length = 244 ∧
  ((List.range 256).filter fun n => (dispatch andConfig (BitVec.ofNat 8 n)).isNone).length = 243 ∧
  (∀ op ∈ [(0x00 : Byte), 0xA8, 0x11], dispatch defaultConfig op = none) ∧
  (∀ op : Byte, 0xC0 ≤ op.toNat → dispatch defaultConfig op = none ∧ dispatch andConfig op = none) ∧
  (∀ s : State, s.status = .running → dispatch s.cfg (s.mem.read s.pc) = none →
    ∃ t, step s = .next t ∧ t.status = .invalidOpcode)

/-- R47: the length is the operand-count field plus one, it is the operand count of the instruction plus one, and no
valid opcode carries the field value 3. -/
def Obligations.LengthIsCountFieldPlusOne : Prop :=
  (∀ op : Byte, instrLen op = (op >>> 6).toNat + 1) ∧
  (∀ (c : Config) (op : Byte) (m : Mnemonic), c.countsMatch → dispatch c op = some m →
    instrLen op = m.operandCount + 1) ∧
  (∀ (c : Config) (op : Byte), c.countsMatch → (op >>> 6).toNat = 3 → dispatch c op = none)

/-- Words written out from the encodings of R48 and R51, the third byte of a shorter instruction being ignored. -/
def Obligations.KnownWordsDecode : Prop :=
  decode defaultConfig [0x01, 0xAA, 0xBB] = .ok (.hlt, [0xAA, 0xBB]) ∧
  decode defaultConfig [0x82, 0x00, 0x05] = .ok (.ldi 0 5, []) ∧
  decode defaultConfig [0x47, 0x03, 0x01] = .ok (.prn 3, [0x01]) ∧
  decode defaultConfig [0xA0, 0x00, 0x01] = .ok (.add 0 1, []) ∧
  decode defaultConfig [0xA2, 0x02, 0x03] = .ok (.mul 2 3, []) ∧
  decode defaultConfig [0xA7, 0x04, 0x05] = .ok (.cmp 4 5, []) ∧
  decode andConfig [0xA8, 0x06, 0x07] = .ok (.and 6 7, []) ∧
  decode defaultConfig [0x45, 0x07, 0x46] = .ok (.push 7, [0x46]) ∧
  decode defaultConfig [0x46, 0x01, 0x00] = .ok (.pop 1, [0x00]) ∧
  decode defaultConfig [0x50, 0x01, 0x47] = .ok (.call 1, [0x47]) ∧
  decode defaultConfig [0x54, 0x06, 0x00] = .ok (.jmp 6, [0x00]) ∧
  decode defaultConfig [0x55, 0x02, 0x00] = .ok (.jeq 2, [0x00]) ∧
  decode defaultConfig [0x56, 0x03, 0x00] = .ok (.jne 3, [0x00])

/-- Decoding the bytes of an instruction gives it back and leaves exactly the bytes after it, for every map of distinct
opcodes, every dispatched instruction and every value of every operand byte. -/
def Obligations.DecodeOfEncodeIsTheInstruction : Prop :=
  ∀ (c : Config) (i : Instr) (rest : List Byte), c.opcodesDistinct → c.dispatched i.mnemonic = true →
    decode c (encode c i ++ rest) = .ok (i, rest)

/-- The other direction: what decodes is the encoding of the instruction it decodes to, followed by the rest. -/
def Obligations.EncodeOfDecodeIsTheBytes : Prop :=
  ∀ (c : Config) (bs : List Byte) (i : Instr) (rest : List Byte), decode c bs = .ok (i, rest) →
    encode c i ++ rest = bs ∧ c.dispatched i.mnemonic = true

/-- The decoder's part of R54: the byte 1 of an F0 instruction and the byte 2 of F0 and F1R instructions do not change
what is decoded. -/
def Obligations.UnusedOperandBytesAreIgnored : Prop :=
  ∀ (c : Config) (op : Byte) (m : Mnemonic), dispatch c op = some m →
    (m.format = .f0 → ∃ i, ∀ x y : Byte, decode c [op, x, y] = .ok (i, [x, y])) ∧
    (m.format = .f1r → ∀ x : Byte, ∃ i, ∀ y : Byte, decode c [op, x, y] = .ok (i, [y]))

/-- R51: the default opcode map, row by row: mnemonic, value, AA, B, C, DDDD, format. (The numbers are the spec's own
choice: notes/assumptions/2.md.) -/
def Obligations.DefaultOpcodeMapIsTheTable : Prop :=
  ∀ row ∈ ([(.hlt, 0x01, 0, false, false, 1, .f0), (.ldi, 0x82, 2, false, false, 2, .f2ri),
      (.prn, 0x47, 1, false, false, 7, .f1r), (.add, 0xA0, 2, true, false, 0, .f2rr),
      (.mul, 0xA2, 2, true, false, 2, .f2rr), (.cmp, 0xA7, 2, true, false, 7, .f2rr),
      (.and, 0xA8, 2, true, false, 8, .f2rr), (.push, 0x45, 1, false, false, 5, .f1r),
      (.pop, 0x46, 1, false, false, 6, .f1r), (.call, 0x50, 1, false, true, 0, .f1r),
      (.jmp, 0x54, 1, false, true, 4, .f1r), (.jeq, 0x55, 1, false, true, 5, .f1r),
      (.jne, 0x56, 1, false, true, 6, .f1r)] :
      List (Mnemonic × Byte × BitVec 2 × Bool × Bool × BitVec 4 × InstrFormat)),
    let (m, op, aa, b, c, dddd, f) := row
    defaultConfig.opcodes.get m = op ∧ fieldAA op = aa ∧ fieldB op = b ∧ fieldC op = c ∧ fieldDDDD op = dddd ∧
      m.format = f ∧ dispatch andConfig op = some m ∧ dispatch defaultConfig op = if m = .and then none else some m

/-! ## The instructions

Each states its encoding under the default map (notes/assumptions/2.md), its result for every register it can name, and
what it does where a check fails. -/

/-- R80: HLT sets status HALTED and lets the default advance apply (one byte under its own opcode); every tick after it
does nothing (D24). The final pc rests on the spec's decision D12 (notes/assumptions/20.md). Opcode number: D4. -/
def Obligations.HltHalts : Prop :=
  (∀ rest, decode defaultConfig (0x01 :: rest) = .ok (.hlt, rest)) ∧
  (∀ s : State, exec .hlt s = .next { s with status := .halted, pc := s.pc + (s.ir >>> 6) + 1 }) ∧
  (∀ s : State, s.ir = 0x01 → exec .hlt s = .next { s with status := .halted, pc := s.pc + 1 }) ∧
  (∀ s t : State, exec .hlt s = .next t → step t = .next t)

/-- R81: LDI loads the immediate exactly, R7 included, with no stack check. Opcode number: D4; bad index: D9. -/
def Obligations.LdiLoadsTheImmediate : Prop :=
  (∀ r imm rest, decode defaultConfig (0x82 :: r :: imm :: rest) = .ok (.ldi r imm, rest)) ∧
  (∀ (s : State) (r : RegIdx) (imm : Byte), exec (.ldi (regByte r) imm) s =
    .next { s with regs := s.regs.set r imm, pc := s.pc + (s.ir >>> 6) + 1 }) ∧
  (∀ (s : State) (r imm : Byte), 7 < r.toNat → exec (.ldi r imm) s = .next { s with status := .invalidRegister })

/-- R82: PRN emits the register's value and changes nothing else but pc. Opcode number: D4; bad index: D9. -/
def Obligations.PrnEmitsTheRegister : Prop :=
  (∀ r rest, decode defaultConfig (0x47 :: r :: rest) = .ok (.prn r, rest)) ∧
  (∀ (s : State) (r : RegIdx), exec (.prn (regByte r)) s =
    .next { s with out := s.out ++ [s.regs[r]], pc := s.pc + (s.ir >>> 6) + 1 }) ∧
  (∀ (s : State) (r : Byte), 7 < r.toNat → exec (.prn r) s = .next { s with status := .invalidRegister })

/-- R74: ADD writes the sum mod 256 to the first register, R7 included, with no stack check and no flags. Opcode number:
D4; bad index: D9. -/
def Obligations.AddWritesTheWrappedSum : Prop :=
  (∀ a b rest, decode defaultConfig (0xA0 :: a :: b :: rest) = .ok (.add a b, rest)) ∧
  (∀ (s : State) (a b : RegIdx), exec (.add (regByte a) (regByte b)) s =
    .next { s with regs := s.regs.set a (BitVec.ofNat 8 ((s.regs[a].toNat + s.regs[b].toNat) % 256))
                   pc := s.pc + (s.ir >>> 6) + 1 }) ∧
  (∀ (s : State) (a b : Byte), 7 < a.toNat ∨ 7 < b.toNat →
    exec (.add a b) s = .next { s with status := .invalidRegister })

/-- R75: MUL writes the low 8 bits of the unsigned product to the first register, and no flags. Opcode number: D4; bad
index: D9. -/
def Obligations.MulWritesTheLowByteOfTheProduct : Prop :=
  (∀ a b rest, decode defaultConfig (0xA2 :: a :: b :: rest) = .ok (.mul a b, rest)) ∧
  (∀ (s : State) (a b : RegIdx), exec (.mul (regByte a) (regByte b)) s =
    .next { s with regs := s.regs.set a (BitVec.ofNat 8 ((s.regs[a].toNat * s.regs[b].toNat) % 256))
                   pc := s.pc + (s.ir >>> 6) + 1 }) ∧
  (∀ (s : State) (a b : Byte), 7 < a.toNat ∨ 7 < b.toNat →
    exec (.mul a b) s = .next { s with status := .invalidRegister })

/-- R76: CMP writes all three flags from the unsigned order, and no register. Opcode number: D4; bad index: D9. -/
def Obligations.CmpWritesAllThreeFlags : Prop :=
  (∀ a b rest, decode defaultConfig (0xA7 :: a :: b :: rest) = .ok (.cmp a b, rest)) ∧
  (∀ (s : State) (a b : RegIdx), exec (.cmp (regByte a) (regByte b)) s =
    .next { s with fl := { e := decide (s.regs[a] = s.regs[b])
                           g := decide (s.regs[b].toNat < s.regs[a].toNat)
                           l := decide (s.regs[a].toNat < s.regs[b].toNat) }
                   pc := s.pc + (s.ir >>> 6) + 1 }) ∧
  (∀ (s : State) (a b : Byte), 7 < a.toNat ∨ 7 < b.toNat →
    exec (.cmp a b) s = .next { s with status := .invalidRegister })

/-- R77: the FL byte after a CMP, by the order of the operands; after any CMP that ran, it is neither 0x00 nor two bits;
no tick brings FL back to 0x00. -/
def Obligations.CmpLeavesOneFlagSet : Prop :=
  (∀ (s t : State) (a b : RegIdx), exec (.cmp (regByte a) (regByte b)) s = .next t →
    (s.regs[a] = s.regs[b] → t.fl.toByte = 0x01) ∧
    (s.regs[b].toNat < s.regs[a].toNat → t.fl.toByte = 0x02) ∧
    (s.regs[a].toNat < s.regs[b].toNat → t.fl.toByte = 0x04) ∧
    t.fl.toByte ≠ 0x00 ∧ t.fl.exclusive) ∧
  (∀ s t : State, step s = .next t → t.fl.toByte = 0x00 → s.fl.toByte = 0x00)

/-- R78: AND, where `AND_DISPATCHED` is true, writes the bitwise AND to the first register; where it is false, 0xA8 is
no instruction of the default map. The last clause is the model's choice (notes/assumptions/15.md): the meaning of AND,
asked of a machine without AND, takes the InvalidOpcode that the decode of a tick takes there. Opcode number: D4; bad
index: D9. -/
def Obligations.AndWritesTheBitwiseAnd : Prop :=
  (∀ a b rest, decode andConfig (0xA8 :: a :: b :: rest) = .ok (.and a b, rest)) ∧
  (∀ (s : State) (a b : RegIdx), s.cfg.andDispatched = true → exec (.and (regByte a) (regByte b)) s =
    .next { s with regs := s.regs.set a (s.regs[a] &&& s.regs[b]), pc := s.pc + (s.ir >>> 6) + 1 }) ∧
  (∀ (s : State) (a b : Byte), s.cfg.andDispatched = true → 7 < a.toNat ∨ 7 < b.toNat →
    exec (.and a b) s = .next { s with status := .invalidRegister }) ∧
  (∀ s : State, s.cfg.opcodes = defaultOpcodes → s.cfg.andDispatched = false → s.status = .running →
    s.mem.read s.pc = 0xA8 → step s = .next { s with ir := 0xA8, status := .invalidOpcode }) ∧
  (∀ (s : State) (a b : Byte), s.cfg.andDispatched = false →
    exec (.and a b) s = .next { s with status := .invalidOpcode })

/-- R87: PUSH stores the register as it stood at the byte below SP and moves SP there; its checks. That `PUSH R7` stores
the old SP is the spec's decision D10 (notes/assumptions/19.md); the stack bound is D8, the bad index D9, the opcode
number D4. -/
def Obligations.PushStoresTheOldRegister : Prop :=
  (∀ r rest, decode defaultConfig (0x45 :: r :: rest) = .ok (.push r, rest)) ∧
  (∀ (s : State) (r : RegIdx), s.cfg.stackFloor.toNat < s.regs[7].toNat → exec (.push (regByte r)) s =
    .next { s with regs := s.regs.set 7 (s.regs[7] - 1), mem := s.mem.write (s.regs[7] - 1) s.regs[r]
                   pc := s.pc + (s.ir >>> 6) + 1 }) ∧
  (∀ (s : State) (r : RegIdx), s.regs[7].toNat ≤ s.cfg.stackFloor.toNat →
    exec (.push (regByte r)) s = .next { s with status := .stackOverflow }) ∧
  (∀ (s : State) (r : Byte), 7 < r.toNat → exec (.push r) s = .next { s with status := .invalidRegister })

/-- R88: POP reads the byte at SP, increments SP, then writes the register, so `POP R7` ends with the popped value (the
spec's decision D10, notes/assumptions/19.md); its checks (D8, D9). Opcode number: D4. -/
def Obligations.PopLoadsTheTopOfStack : Prop :=
  (∀ r rest, decode defaultConfig (0x46 :: r :: rest) = .ok (.pop r, rest)) ∧
  (∀ (s : State) (r : RegIdx), s.regs[7].toNat < s.cfg.spInit.toNat → exec (.pop (regByte r)) s =
    .next { s with regs := (s.regs.set 7 (s.regs[7] + 1)).set r (s.mem.read s.regs[7])
                   pc := s.pc + (s.ir >>> 6) + 1 }) ∧
  (∀ (s : State) (r : RegIdx), s.cfg.spInit.toNat ≤ s.regs[7].toNat →
    exec (.pop (regByte r)) s = .next { s with status := .stackUnderflow }) ∧
  (∀ (s : State) (r : Byte), 7 < r.toNat → exec (.pop r) s = .next { s with status := .invalidRegister })

/-- R90: CALL pushes `pc + 2` and jumps to the register's value from before the push (the spec's decision D10,
notes/assumptions/19.md); its checks (D8, D9). Opcode number: D4. -/
def Obligations.CallPushesTheReturnAddressAndJumps : Prop :=
  (∀ r rest, decode defaultConfig (0x50 :: r :: rest) = .ok (.call r, rest)) ∧
  (∀ (s : State) (r : RegIdx), s.cfg.stackFloor.toNat < s.regs[7].toNat → exec (.call (regByte r)) s =
    .next { s with regs := s.regs.set 7 (s.regs[7] - 1), mem := s.mem.write (s.regs[7] - 1) (s.pc + 2)
                   pc := s.regs[r] }) ∧
  (∀ (s : State) (r : RegIdx), s.regs[7].toNat ≤ s.cfg.stackFloor.toNat →
    exec (.call (regByte r)) s = .next { s with status := .stackOverflow }) ∧
  (∀ (s : State) (r : Byte), 7 < r.toNat → exec (.call r) s = .next { s with status := .invalidRegister })

/-- R91: JMP sets pc to the register's value. Opcode number: D4; bad index: D9. -/
def Obligations.JmpGoesToTheRegister : Prop :=
  (∀ r rest, decode defaultConfig (0x54 :: r :: rest) = .ok (.jmp r, rest)) ∧
  (∀ (s : State) (r : RegIdx), exec (.jmp (regByte r)) s = .next { s with pc := s.regs[r] }) ∧
  (∀ (s : State) (r : Byte), 7 < r.toNat → exec (.jmp r) s = .next { s with status := .invalidRegister })

/-- R92: JEQ jumps when E is 1 and falls through otherwise; the index is checked either way (D25). Opcode number: D4. -/
def Obligations.JeqJumpsWhenEqual : Prop :=
  (∀ r rest, decode defaultConfig (0x55 :: r :: rest) = .ok (.jeq r, rest)) ∧
  (∀ (s : State) (r : RegIdx), s.fl.e = true → exec (.jeq (regByte r)) s = .next { s with pc := s.regs[r] }) ∧
  (∀ (s : State) (r : RegIdx), s.fl.e = false →
    exec (.jeq (regByte r)) s = .next { s with pc := s.pc + (s.ir >>> 6) + 1 }) ∧
  (∀ (s : State) (r : Byte), 7 < r.toNat → exec (.jeq r) s = .next { s with status := .invalidRegister })

/-- R93: JNE jumps when E is 0 and falls through otherwise; the index is checked either way (D25). Opcode number: D4. -/
def Obligations.JneJumpsWhenNotEqual : Prop :=
  (∀ r rest, decode defaultConfig (0x56 :: r :: rest) = .ok (.jne r, rest)) ∧
  (∀ (s : State) (r : RegIdx), s.fl.e = false → exec (.jne (regByte r)) s = .next { s with pc := s.regs[r] }) ∧
  (∀ (s : State) (r : RegIdx), s.fl.e = true →
    exec (.jne (regByte r)) s = .next { s with pc := s.pc + (s.ir >>> 6) + 1 }) ∧
  (∀ (s : State) (r : Byte), 7 < r.toNat → exec (.jne r) s = .next { s with status := .invalidRegister })

/-! ## The program counter and the faults -/

/-- R66, R67: where a tick lands, unless it faults: 1, 2 or 3 bytes on by the instruction, or at the register's value
verbatim. Sums wrap mod 256 (the spec's decision D3, notes/assumptions/21.md). -/
def Obligations.TicksLandAtTheNextInstruction : Prop :=
  ∀ (s t : State) (i : Instr), s.cfg.countsMatch → s.status = .running → s.decodesTo i → step s = .next t →
    t.status.isFault = false →
    match i with
    | .hlt => t.pc = s.pc + 1
    | .prn _ | .push _ | .pop _ => t.pc = s.pc + 2
    | .ldi _ _ | .add _ _ | .mul _ _ | .cmp _ _ | .and _ _ => t.pc = s.pc + 3
    | .call r | .jmp r => ∃ k, r = regByte k ∧ t.pc = s.reg k
    | .jeq r => ∃ k, r = regByte k ∧ t.pc = if s.fl.e then s.reg k else s.pc + 2
    | .jne r => ∃ k, r = regByte k ∧ t.pc = if s.fl.e then s.pc + 2 else s.reg k

/-- R104, R68: a fault is precise. The state after it is the state before, but for `ir`, which holds the fetched byte,
and `status`; and from then on every tick does nothing (D11, D16, D24). -/
def Obligations.FaultsArePreciseAndFinal : Prop :=
  ∀ s t : State, s.status = .running → step s = .next t → t.status.isFault = true →
    t = { s with ir := s.mem.read s.pc, status := t.status } ∧ ∀ n, t.afterTicks n = some t

/-- R97: which tick of a running machine ends in which fault, and so which instructions raise it. The last three faults
are the spec's own (D8, D9), and so is the order of the checks (D26). -/
def Obligations.FaultsHaveTheStatedConditions : Prop :=
  ∀ s t : State, s.status = .running → step s = .next t →
    (t.status = .invalidOpcode ↔ dispatch s.cfg (s.mem.read s.pc) = none) ∧
    (t.status = .invalidRegister ↔ ∃ i, s.decodesTo i ∧ ∃ n ∈ i.registers, 7 < n.toNat) ∧
    (t.status = .stackOverflow ↔ ∃ r : RegIdx, (s.decodesTo (.push (regByte r)) ∨ s.decodesTo (.call (regByte r))) ∧
      s.sp.toNat ≤ s.cfg.stackFloor.toNat) ∧
    (t.status = .stackUnderflow ↔ ∃ r : RegIdx, s.decodesTo (.pop (regByte r)) ∧ s.cfg.spInit.toNat ≤ s.sp.toNat)

/-- R102, R103: after the tick the host can tell which check failed first, and its info: the decode, then operandA's
index, then operandB's, then the stack bound; and where no check failed there is no fault to tell. (D11, D26; the
function faultReport is the model's reading of R102, notes/assumptions/11.md.) -/
def Obligations.TheFirstFailedCheckIsReported : Prop :=
  ∀ s t : State, s.status = .running → step s = .next t →
    (dispatch s.cfg (s.mem.read s.pc) = none → faultReport t = some (.invalidOpcode (s.mem.read s.pc) s.pc)) ∧
    ∀ i, s.decodesTo i →
      match i.registers.find? (fun n => decide (7 < n.toNat)) with
      | some n => faultReport t = some (.invalidRegister n)
      | none =>
        match i with
        | .push _ | .call _ =>
          faultReport t = if s.sp.toNat ≤ s.cfg.stackFloor.toNat then some (.stackOverflow s.sp) else none
        | .pop _ =>
          faultReport t = if s.cfg.spInit.toNat ≤ s.sp.toNat then some (.stackUnderflow s.sp) else none
        | _ => faultReport t = none

/-! ## Who writes and who reads what -/

/-- R21, R23: only CMP writes FL, and a CMP that runs leaves exactly one flag set; FL holds across every other tick. -/
def Obligations.OnlyCmpWritesFlags : Prop :=
  (∀ (i : Instr) (s t : State), exec i s = .next t → t.fl ≠ s.fl → ∃ a b : RegIdx, i = .cmp (regByte a) (regByte b)) ∧
  (∀ s t : State, step s = .next t → t.fl ≠ s.fl →
    s.status = .running ∧ ∃ a b : RegIdx, s.decodesTo (.cmp (regByte a) (regByte b))) ∧
  (∀ (s t : State) (a b : RegIdx), exec (.cmp (regByte a) (regByte b)) s = .next t →
    t.fl.exclusive ∧ (t.fl.e = true ∨ t.fl.g = true ∨ t.fl.l = true))

/-- R26: a tick does nothing unless `status` is RUNNING; HLT and the four faults are what writes it; and no instruction
reads it: with another value in it, every instruction does the same to everything else. -/
def Obligations.OnlyHltAndFaultsWriteStatus : Prop :=
  (∀ s : State, s.status ≠ .running → step s = .next s) ∧
  (∀ s t : State, step s = .next t → t.status ≠ s.status →
    s.status = .running ∧ (t.status.isFault = true ∨ (t.status = .halted ∧ s.decodesTo .hlt))) ∧
  (∀ (i : Instr) (s t : State) (st : Status), exec i s = .next t →
    ∃ t', exec i { s with status := st } = .next t' ∧ { t' with status := t.status } = t)

/-- R27: PRN appends its register's value to the output sequence, one event per PRN, in execution order; no other tick
produces output. -/
def Obligations.OnlyPrnProducesOutput : Prop :=
  ∀ s t : State, step s = .next t →
    (∀ r : RegIdx, s.status = .running → s.decodesTo (.prn (regByte r)) → t.out = s.out ++ [s.reg r]) ∧
    ((∀ r : RegIdx, s.status = .running → ¬ s.decodesTo (.prn (regByte r))) → t.out = s.out)

/-- R70, R32: a tick changes at most one byte of memory, the one at the new SP, and only for a PUSH or a CALL. -/
def Obligations.OnlyTheNewStackByteIsWritten : Prop :=
  ∀ (s t : State) (x : Addr), step s = .next t → t.mem.read x ≠ s.mem.read x →
    x = s.sp - 1 ∧ t.sp = x ∧ ∃ r : RegIdx, s.decodesTo (.push (regByte r)) ∨ s.decodesTo (.call (regByte r))

/-- R13: an instruction neither reads nor writes a register it does not name, except that PUSH, POP and CALL also use
R7: with another value in such a register the tick does the same to everything else and leaves that value; and no
register is hardwired. -/
def Obligations.UnnamedRegistersAreUntouched : Prop :=
  (∀ (i : Instr) (s t : State) (k : RegIdx) (v : Byte), regByte k ∉ i.registers →
    (i.mnemonic = .push ∨ i.mnemonic = .pop ∨ i.mnemonic = .call → k ≠ 7) → exec i s = .next t →
    t.reg k = s.reg k ∧ exec i (s.setReg k v) = .next (t.setReg k v)) ∧
  (∀ (s : State) (k : RegIdx) (v : Byte), (s.setReg k v).reg k = v)

/-- R22: JEQ and JNE read E alone of FL, and no other instruction reads FL at all: a CMP that runs answers the same state
whatever FL was, and every other form, a CMP that faults included, does the same to everything else and leaves FL as it
found it. -/
def Obligations.OnlyEqualIsEverRead : Prop :=
  (∀ (i : Instr) (s t : State) (g l : Bool), i.mnemonic = .jeq ∨ i.mnemonic = .jne → exec i s = .next t →
    exec i { s with fl := { e := s.fl.e, g := g, l := l } } = .next { t with fl := { e := s.fl.e, g := g, l := l } }) ∧
  (∀ (s t : State) (a b : RegIdx) (f : Flags), exec (.cmp (regByte a) (regByte b)) s = .next t →
    exec (.cmp (regByte a) (regByte b)) { s with fl := f } = .next t) ∧
  (∀ (i : Instr) (s t : State) (f : Flags), i.mnemonic ≠ .jeq → i.mnemonic ≠ .jne →
    (∀ a b : RegIdx, i ≠ .cmp (regByte a) (regByte b)) → exec i s = .next t →
    exec i { s with fl := f } = .next { t with fl := f })

/-- R19: a tick of a running machine leaves in `ir` the byte it fetched, whatever it ends in; a tick in a terminal
state and every handler leave `ir` alone; and no instruction reads it: with another byte in it, every instruction does
the same to everything but pc (whose default advance is the controller's, R66). -/
def Obligations.OnlyTheFetchWritesIr : Prop :=
  (∀ s t : State, step s = .next t → t.ir = if s.status = .running then s.mem.read s.pc else s.ir) ∧
  (∀ (i : Instr) (s t : State), exec i s = .next t → t.ir = s.ir) ∧
  (∀ (i : Instr) (s t : State) (op : Byte), exec i s = .next t →
    ∃ t', exec i { s with ir := op } = .next t' ∧ { t' with ir := t.ir, pc := t.pc } = t)

/-! ## Memory -/

/-- The model's form of memory (notes/assumptions/5.md): two canonical memories that read the same at all 256
addresses are the same data. -/
def Obligations.CanonicalMemoriesAreExtensional : Prop :=
  ∀ m n : Memory, m.wf → n.wf → (∀ a : Addr, m.read a = n.read a) → m = n

/-- R38 (D19): after any sequence of writes, a read returns the value of the last write to its address, or what the
memory held before them. -/
def Obligations.ReadsReturnTheLastWrite : Prop :=
  ∀ (m : Memory) (ws : List (Addr × Byte)) (a : Addr), m.wf →
    (ws.foldl (fun m w => m.write w.1 w.2) m).read a =
      match ws.reverse.find? (fun w => w.1 == a) with
      | some w => w.2
      | none => m.read a

/-- R29 (D19): a poke stores one byte and changes no CORE state. -/
def Obligations.PokeStoresOneByte : Prop :=
  ∀ (s : State) (a x : Addr) (v : Byte), s.mem.wf →
    (poke a v s).mem.read x = (if x = a then v else s.mem.read x) ∧ { poke a v s with mem := s.mem } = s

/-- R39: the accesses of a tick, in order: the opcode; after a valid opcode the two operand bytes; then at most one
access of the handler, a write for PUSH and CALL, a read for POP, none where it faults. Done one at a time they give the
memory after the tick. -/
def Obligations.TickAccessesAreInOrder : Prop :=
  (∀ s t : State, step s = .next t → s.mem.apply (tickAccesses s) = t.mem) ∧
  (∀ s : State, s.status = .running → dispatch s.cfg (s.mem.read s.pc) = none →
    tickAccesses s = [.read s.pc (s.mem.read s.pc)]) ∧
  (∀ (s t : State) (i : Instr), s.status = .running → s.decodesTo i → step s = .next t →
    tickAccesses s = .read s.pc (s.mem.read s.pc) :: .read (s.pc + 1) (s.mem.read (s.pc + 1)) ::
        .read (s.pc + 2) (s.mem.read (s.pc + 2)) ::
          (if t.status.isFault then [] else
            match i with
            | .push r => [.write (s.sp - 1) (s.reg (Fin.ofNat 8 r.toNat))]
            | .call _ => [.write (s.sp - 1) (s.pc + 2)]
            | .pop _ => [.read s.sp (s.mem.read s.sp)]
            | _ => []))

/-- R42 (D18): the byte a PUSH or CALL stores is seen by every later fetch of its address, opcode or operand, wherever
the pc stands; the other bytes are as they were. -/
def Obligations.StackWritesAreSeenByLaterFetches : Prop :=
  ∀ (s t : State) (v : Byte) (p : Addr), s.mem.wf → s.status = .running → step s = .next t →
    t.status.isFault = false →
    ((∃ r : RegIdx, s.decodesTo (.push (regByte r)) ∧ v = s.reg r) ∨
      (∃ r : RegIdx, s.decodesTo (.call (regByte r)) ∧ v = s.pc + 2)) →
    ({ t with pc := p } : State).fetchBytes =
      [p, p + 1, p + 2].map fun x => if x = s.sp - 1 then v else s.mem.read x

/-! ## The stack -/

/-- R88's property (CA1 §8): a PUSH and the POP after it, for every pair of registers: both complete, the popped
register holds what was pushed, the byte stays in memory, and SP is back unless the popped register is R7 itself. The
forms with R7 rest on the spec's decision D10 (notes/assumptions/19.md). -/
def Obligations.PopAfterPushRestores : Prop :=
  ∀ (s : State) (r r2 : RegIdx), s.mem.wf → s.cfg.stackFloor.toNat < s.sp.toNat → s.sp.toNat ≤ s.cfg.spInit.toNat →
    ∃ t u, exec (.push (regByte r)) s = .next t ∧ exec (.pop (regByte r2)) t = .next u ∧
      u.status = s.status ∧ u.reg r2 = s.reg r ∧ (r2 ≠ 7 → u.sp = s.sp) ∧ u.mem.read (s.sp - 1) = s.reg r

/-- R95 (D15): there is no return instruction, 0x11 is illegal, and `POP Rk; JMP Rk` brings control back to the byte
after the CALL, for any `k` but 7. -/
def Obligations.PopThenJmpReturnsFromCall : Prop :=
  dispatch defaultConfig 0x11 = none ∧ dispatch andConfig 0x11 = none ∧
  ∀ (s : State) (r k : RegIdx), s.mem.wf → k ≠ 7 → s.cfg.stackFloor.toNat < s.sp.toNat →
    s.sp.toNat ≤ s.cfg.spInit.toNat →
    ∃ t u w, exec (.call (regByte r)) s = .next t ∧ t.pc = s.reg r ∧ exec (.pop (regByte k)) t = .next u ∧
      exec (.jmp (regByte k)) u = .next w ∧ w.pc = s.pc + 2 ∧ w.sp = s.sp ∧ w.status = s.status

/-- R89 (derived by the spec from R83 to R88): the shape of the stack (its length where SP is above SP_INIT, 0, is the
model's choice, notes/assumptions/28.md), and that PUSH, CALL and POP are the operations
of a last-in first-out list of bytes. -/
def Obligations.TheStackIsLastInFirstOut : Prop :=
  (∀ s : State, s.stackContents.length = s.cfg.spInit.toNat - s.sp.toNat) ∧
  (∀ s : State, s.sp.toNat ≤ s.cfg.spInit.toNat → (s.stackContents = [] ↔ s.sp = s.cfg.spInit)) ∧
  (∀ s : State, s.sp.toNat < s.cfg.spInit.toNat → s.stackContents.head? = some (s.mem.read s.sp)) ∧
  (∀ (s t : State) (r : RegIdx), s.mem.wf → s.cfg.stackFloor.toNat < s.sp.toNat → s.sp.toNat ≤ s.cfg.spInit.toNat →
    exec (.push (regByte r)) s = .next t → t.stackContents = s.reg r :: s.stackContents) ∧
  (∀ (s t : State) (r : RegIdx), s.mem.wf → s.cfg.stackFloor.toNat < s.sp.toNat → s.sp.toNat ≤ s.cfg.spInit.toNat →
    exec (.call (regByte r)) s = .next t → t.stackContents = (s.pc + 2) :: s.stackContents) ∧
  (∀ (s t : State) (r : RegIdx), r ≠ 7 → s.sp.toNat < s.cfg.spInit.toNat → exec (.pop (regByte r)) s = .next t →
    s.stackContents = t.reg r :: t.stackContents)

/-- R85, R86 (D8): the stack operations keep SP between STACK_FLOOR and SP_INIT. A PUSH or CALL that runs lowers SP by one,
a POP that runs raises it by one, without a wrap, and one that faults leaves SP. (A POP into R7 itself takes charge of
SP and is left out: R120.) -/
def Obligations.StackOperationsKeepTheBounds : Prop :=
  (∀ (i : Instr) (s t : State), (∃ r, i = .push r) ∨ (∃ r, i = .call r) → exec i s = .next t →
    t.status.isFault = true ∧ t.sp = s.sp ∨ t.status = s.status ∧ t.sp.toNat + 1 = s.sp.toNat) ∧
  (∀ (r : Byte) (s t : State), r ≠ 7 → exec (.pop r) s = .next t →
    t.status.isFault = true ∧ t.sp = s.sp ∨ t.status = s.status ∧ t.sp.toNat = s.sp.toNat + 1) ∧
  (∀ (i : Instr) (s t : State),
    (∃ r, i = .push r) ∨ (∃ r, i = .call r) ∨ (∃ r : Byte, i = .pop r ∧ r ≠ 7) → exec i s = .next t →
    s.cfg.stackFloor.toNat ≤ s.sp.toNat → s.sp.toNat ≤ s.cfg.spInit.toNat →
    s.cfg.stackFloor.toNat ≤ t.sp.toNat ∧ t.sp.toNat ≤ s.cfg.spInit.toNat)

/-! ## Frames

What each instruction leaves unchanged whenever `exec` answers a next state, the form that faults included. -/

/-- LDI, ADD, MUL and AND change their destination register, pc, and status where they fault; nothing else. -/
def Obligations.RegisterWriteFrame : Prop :=
  ∀ (i : Instr) (d : Byte) (s t : State),
    (∃ v, i = .ldi d v) ∨ (∃ b, i = .add d b) ∨ (∃ b, i = .mul d b) ∨ (∃ b, i = .and d b) → exec i s = .next t →
    (∀ k : RegIdx, regByte k ≠ d → t.reg k = s.reg k) ∧ t.fl = s.fl ∧ t.ir = s.ir ∧ t.out = s.out ∧
    t.cfg = s.cfg ∧ (∀ x : Addr, t.mem.read x = s.mem.read x) ∧
    (t.status = s.status ∨ t.status.isFault = true ∧ t.pc = s.pc ∧ ∀ k, t.reg k = s.reg k)

/-- HLT, PRN, CMP, JMP, JEQ and JNE change no register and no byte of memory; FL only by CMP, the output only by PRN,
the status only by HLT or where they fault. -/
def Obligations.NoRegisterWriteFrame : Prop :=
  ∀ (i : Instr) (s t : State), i.mnemonic ∈ [.hlt, .prn, .cmp, .jmp, .jeq, .jne] → exec i s = .next t →
    (∀ k : RegIdx, t.reg k = s.reg k) ∧ t.ir = s.ir ∧ t.cfg = s.cfg ∧
    (∀ x : Addr, t.mem.read x = s.mem.read x) ∧ (i.mnemonic ≠ .cmp → t.fl = s.fl) ∧
    (i.mnemonic ≠ .prn → t.out = s.out) ∧
    (t.status = s.status ∨ i = .hlt ∨
      t.status = .invalidRegister ∧ t.pc = s.pc ∧ t.fl = s.fl ∧ t.out = s.out)

/-- PUSH and CALL change R7, the one byte of memory at the address they store to (`sp - 1`, as the handler computes it),
pc, and status where they fault (then neither R7 nor memory). -/
def Obligations.StackStoreFrame : Prop :=
  ∀ (i : Instr) (s t : State), (∃ r, i = .push r) ∨ (∃ r, i = .call r) → exec i s = .next t →
    (∀ k : RegIdx, k ≠ 7 → t.reg k = s.reg k) ∧ t.fl = s.fl ∧ t.ir = s.ir ∧ t.out = s.out ∧ t.cfg = s.cfg ∧
    (∀ x : Addr, x ≠ s.sp - 1 → t.mem.read x = s.mem.read x) ∧
    (t.status = s.status ∨
      t.status.isFault = true ∧ t.pc = s.pc ∧ t.sp = s.sp ∧ ∀ x : Addr, t.mem.read x = s.mem.read x)

/-- POP changes its destination register, R7, pc, and status where it faults (then no register). -/
def Obligations.StackLoadFrame : Prop :=
  ∀ (r : Byte) (s t : State), exec (.pop r) s = .next t →
    (∀ k : RegIdx, k ≠ 7 → regByte k ≠ r → t.reg k = s.reg k) ∧ t.fl = s.fl ∧ t.ir = s.ir ∧ t.out = s.out ∧
    t.cfg = s.cfg ∧ (∀ x : Addr, t.mem.read x = s.mem.read x) ∧
    (t.status = s.status ∨ t.status.isFault = true ∧ t.pc = s.pc ∧ ∀ k, t.reg k = s.reg k)

/-! ## ALU, layouts, assembler, run -/

/-- R71, R72, R73: the ALU function, for each operation select; an unknown one changes nothing (D13,
notes/assumptions/17.md). -/
def Obligations.AluAppliesItsOperation : Prop :=
  ∀ (i j : RegIdx) (s : State),
    aluApply .add i j s =
      { s with regs := s.regs.set i (BitVec.ofNat 8 ((s.regs[i].toNat + s.regs[j].toNat) % 256)) } ∧
    aluApply .mul i j s =
      { s with regs := s.regs.set i (BitVec.ofNat 8 ((s.regs[i].toNat * s.regs[j].toNat) % 256)) } ∧
    aluApply .and i j s = { s with regs := s.regs.set i (s.regs[i] &&& s.regs[j]) } ∧
    aluApply .cmp i j s = { s with fl := { e := decide (s.regs[i] = s.regs[j])
                                           g := decide (s.regs[j].toNat < s.regs[i].toNat)
                                           l := decide (s.regs[i].toNat < s.regs[j].toNat) } } ∧
    aluApply .unknown i j s = s

/-- R20 (D6), R25 (D11): the FL byte is `0b00000LGE`; the status codes; codes 2 to 5 are the faults, and 6 and 7 are
never taken. -/
def Obligations.FlagAndStatusLayouts : Prop :=
  (∀ f : Flags, f.toByte.getLsbD 0 = f.e ∧ f.toByte.getLsbD 1 = f.g ∧ f.toByte.getLsbD 2 = f.l ∧
    f.toByte.toNat < 8) ∧
  ([.running, .halted, .invalidOpcode, .invalidRegister, .stackOverflow, .stackUnderflow] : List Status).map
    Status.code = [0, 1, 2, 3, 4, 5] ∧
  (∀ st : Status, st.code.toNat ≤ 5 ∧ (st.isFault = true ↔ 2 ≤ st.code.toNat))

/-- R56: reading the statement an instruction is written as gives the instruction back, for every register and every
immediate, and the bytes of a one-statement listing are its encoding. (The spellings accepted are the spec's decision
D27, notes/assumptions/18.md.) -/
def Obligations.AssemblyReadsBack : Prop :=
  ∀ (c : Config) (i : Instr), i.registersInRange →
    parseInstr (printInstr i) = some i ∧ assemble c (printInstr i) = some (encode c i)

/-- The model's placement of an instruction (notes/assumptions/6.md, 7.md): the next tick runs exactly the instruction
that a table word decodes to. -/
def Obligations.FetchWordIsRunNext : Prop :=
  ∀ (s : State) (nbits w : Nat) (i : Instr) (rest : List Byte), s.mem.wf →
    decode (enableAnd s.cfg (wordBytes nbits w).1)
      [(wordBytes nbits w).1, (wordBytes nbits w).2.1, (wordBytes nbits w).2.2] = .ok (i, rest) →
    step (s.withFetchWord nbits w) = exec i { s.withFetchWord nbits w with ir := (wordBytes nbits w).1 }

/-- R91 (corner case 2), R69: a JMP to its own address is a hang; so are a JEQ taken to its own address and a JNE taken
to its own address. -/
def Obligations.JumpToSelfHangs : Prop :=
  ∀ (s : State) (r : RegIdx), s.status = .running → s.reg r = s.pc →
    s.decodesTo (.jmp (regByte r)) ∨ (s.decodesTo (.jeq (regByte r)) ∧ s.fl.e = true) ∨
      (s.decodesTo (.jne (regByte r)) ∧ s.fl.e = false) → Hangs s

/-- R115 (D24): a run either hangs or ends, not both; it ends at one tick and stays in that state; and its end is
normal or a fault end, not both. -/
def Obligations.ARunEndsOnceOrHangs : Prop :=
  (∀ s : State, Hangs s ∨ ∃ n t, EndsAt s n t) ∧
  (∀ (s : State) (n : Nat) (t : State), EndsAt s n t → ¬ Hangs s ∧ (∀ m, n ≤ m → s.afterTicks m = some t) ∧
    (t.normalEnd ∨ t.faultEnd) ∧ ¬ (t.normalEnd ∧ t.faultEnd) ∧ ∀ n' t', EndsAt s n' t' → n' = n ∧ t' = t)
end

