-- ==== Sys2Proof/Laws/Memory.lean ====
section
/-! SUPPORT. What the memory operations do: a write changes one byte (spec 20_memory.md R36), and every operation keeps
the canonical form. -/

namespace Sys2Proof.Machine

theorem Addr.toNat_lt (a : Addr) : a.toNat < 256 := a.isLt

theorem Memory.read_cons (k : Nat) (v : Byte) (m : Memory) (x : Addr) :
    Memory.read ((k, v) :: m) x = if k = x.toNat then v else m.read x := rfl

/-- An address below every listed one reads as an unlisted byte. -/
theorem Memory.read_of_lt {m : Memory} {x : Addr} (h : ∀ c ∈ m, x.toNat < c.1) : m.read x = unlistedByte := by
  induction m with
  | nil => rfl
  | cons c m ih =>
    have hc := h c (by simp)
    rw [Memory.read_cons, if_neg (by omega), ih fun d hd => h d (by simp [hd])]

/-- Memory with one byte put in front reads as before at every other address. -/
theorem Memory.read_put_ne {m : Memory} {a x : Addr} {v : Byte} (h : x ≠ a) : (Memory.put a v m).read x = m.read x := by
  have hn : a.toNat ≠ x.toNat := fun e => h (BitVec.eq_of_toNat_eq e.symm)
  unfold Memory.put
  split
  · rfl
  · rw [Memory.read_cons, if_neg hn]

/-- A write leaves every other address alone (R36), whatever the form of the memory. -/
theorem Memory.read_write_ne {m : Memory} {a x : Addr} {v : Byte} (h : x ≠ a) : (m.write a v).read x = m.read x := by
  have hn : a.toNat ≠ x.toNat := fun e => h (BitVec.eq_of_toNat_eq e.symm)
  induction m with
  | nil => exact Memory.read_put_ne h
  | cons c m ih =>
    obtain ⟨k, w⟩ := c
    simp only [Memory.write]
    split
    · exact Memory.read_put_ne h
    · split
      · rename_i hk
        rw [Memory.read_put_ne h, Memory.read_cons, if_neg (by omega)]
      · rw [Memory.read_cons, Memory.read_cons, ih]

/-- The form of a tail, and what the head is beside it. -/
theorem Memory.wf_cons {k : Nat} {w : Byte} {m : Memory} :
    Memory.wf ((k, w) :: m) ↔ (∀ c ∈ m, k < c.1) ∧ k < 256 ∧ w ≠ unlistedByte ∧ m.wf := by
  simp only [Memory.wf, List.map_cons, List.pairwise_cons, List.mem_map, List.mem_cons]
  constructor
  · rintro ⟨⟨h1, h2⟩, h3⟩
    exact ⟨fun c hc => h1 c.1 ⟨c, hc, rfl⟩, (h3 (k, w) (.inl rfl)).1, (h3 (k, w) (.inl rfl)).2, h2,
      fun c hc => h3 c (.inr hc)⟩
  · rintro ⟨h1, h2, h3, h4, h5⟩
    refine ⟨⟨?_, h4⟩, ?_⟩
    · rintro _ ⟨c, hc, rfl⟩
      exact h1 c hc
    · rintro c (rfl | hc)
      · exact ⟨h2, h3⟩
      · exact h5 c hc

/-- In front of higher addresses, the byte put there is what its address reads as. -/
theorem Memory.read_put_self {m : Memory} {a : Addr} {v : Byte} (h : ∀ c ∈ m, a.toNat < c.1) :
    (Memory.put a v m).read a = v := by
  unfold Memory.put
  split
  · rename_i hv
    rw [Memory.read_of_lt h, hv]
  · rw [Memory.read_cons, if_pos rfl]

/-- Reading the written address gives the value written (R38). -/
theorem Memory.read_write_self {m : Memory} {a : Addr} {v : Byte} (h : m.wf) : (m.write a v).read a = v := by
  induction m with
  | nil => exact Memory.read_put_self (by simp)
  | cons c m ih =>
    obtain ⟨k, w⟩ := c
    obtain ⟨h1, -, -, h4⟩ := Memory.wf_cons.mp h
    simp only [Memory.write]
    split
    · rename_i hk
      refine Memory.read_put_self fun c hc => ?_
      rcases List.mem_cons.mp hc with rfl | hc
      · exact hk
      · exact Nat.lt_trans hk (h1 c hc)
    · split
      · rename_i hk
        exact Memory.read_put_self fun c hc => hk ▸ h1 c hc
      · rename_i hk
        rw [Memory.read_cons, if_neg (fun e => hk e.symm), ih h4]

/-- One byte of a canonical memory after a write to it (R36, R38). -/
theorem Memory.read_write {m : Memory} (h : m.wf) (a x : Addr) (v : Byte) :
    (m.write a v).read x = if x = a then v else m.read x := by
  split
  · rename_i hx
    rw [hx, Memory.read_write_self h]
  · rename_i hx
    exact Memory.read_write_ne hx

/-- Putting a byte in front of higher addresses keeps the form. -/
theorem Memory.put_wf {m : Memory} {a : Addr} {v : Byte} (h : m.wf) (hlt : ∀ c ∈ m, a.toNat < c.1) :
    (Memory.put a v m).wf := by
  unfold Memory.put
  split
  · exact h
  · rename_i hv
    exact Memory.wf_cons.mpr ⟨hlt, a.isLt, hv, h⟩

/-- Every listed address after a write was listed before or is the one written. -/
theorem Memory.mem_write {m : Memory} {a : Addr} {v : Byte} {c : Host.Cell} (h : c ∈ m.write a v) :
    c.1 = a.toNat ∨ c ∈ m := by
  have put : ∀ n : Memory, c ∈ Memory.put a v n → c.1 = a.toNat ∨ c ∈ n := by
    intro n hn
    unfold Memory.put at hn
    split at hn
    · exact .inr hn
    · rcases List.mem_cons.mp hn with rfl | hn
      · exact .inl rfl
      · exact .inr hn
  induction m with
  | nil => exact put [] h
  | cons d m ih =>
    obtain ⟨k, w⟩ := d
    simp only [Memory.write] at h
    split at h
    · exact put _ h
    · split at h
      · exact (put _ h).imp id (List.mem_cons_of_mem _)
      · rcases List.mem_cons.mp h with rfl | h
        · exact .inr (by simp)
        · exact (ih h).imp id (List.mem_cons_of_mem _)

/-- A write keeps the canonical form. -/
theorem Memory.write_wf {m : Memory} (h : m.wf) (a : Addr) (v : Byte) : (m.write a v).wf := by
  induction m with
  | nil => exact Memory.put_wf h (by simp)
  | cons c m ih =>
    obtain ⟨k, w⟩ := c
    obtain ⟨h1, h2, h3, h4⟩ := Memory.wf_cons.mp h
    simp only [Memory.write]
    split
    · rename_i hk
      refine Memory.put_wf h fun c hc => ?_
      rcases List.mem_cons.mp hc with rfl | hc
      · exact hk
      · exact Nat.lt_trans hk (h1 c hc)
    · split
      · rename_i hk
        exact Memory.put_wf h4 fun c hc => hk ▸ h1 c hc
      · rename_i hlt hne
        refine Memory.wf_cons.mpr ⟨fun c hc => ?_, h2, h3, ih h4⟩
        rcases Memory.mem_write hc with e | hc
        · omega
        · exact h1 c hc

/-- The loader's poke keeps the canonical form (10_state.md R29). -/
theorem poke_mem_wf {s : State} (h : s.mem.wf) (a : Addr) (v : Byte) : (poke a v s).mem.wf := Memory.write_wf h a v

/-- The accesses of a tick keep the canonical form. -/
theorem Memory.apply_wf (as : List Access) {m : Memory} (h : m.wf) : (m.apply as).wf := by
  induction as generalizing m with
  | nil => exact h
  | cons x as ih =>
    cases x with
    | read a v => exact ih h
    | write a v => exact ih (Memory.write_wf h a v)

/-- Placing an instruction keeps the canonical form. -/
theorem withFetchWord_mem_wf {s : State} (h : s.mem.wf) (nbits w : Nat) : (s.withFetchWord nbits w).mem.wf :=
  Memory.write_wf (Memory.write_wf (Memory.write_wf h _ _) _ _) _ _

/-- The memory of the reset state is canonical. -/
theorem reset_mem_wf : State.reset.mem.wf := by decide

end Sys2Proof.Machine
end

