-- ==== Sys2Proof/Laws/State.lean ====
section
/-! SUPPORT. One lemma for each field of State after each named update of Machine/Ops.lean, true by rfl, so that no
later proof unfolds a record update. -/

namespace Sys2Proof.Machine

/-! ## setReg -/

@[simp] theorem State.setReg_regs (s : State) (i : RegIdx) (v : Byte) : (s.setReg i v).regs = s.regs.set i v := rfl
@[simp] theorem State.setReg_pc (s : State) (i : RegIdx) (v : Byte) : (s.setReg i v).pc = s.pc := rfl
@[simp] theorem State.setReg_ir (s : State) (i : RegIdx) (v : Byte) : (s.setReg i v).ir = s.ir := rfl
@[simp] theorem State.setReg_fl (s : State) (i : RegIdx) (v : Byte) : (s.setReg i v).fl = s.fl := rfl
@[simp] theorem State.setReg_status (s : State) (i : RegIdx) (v : Byte) : (s.setReg i v).status = s.status := rfl
@[simp] theorem State.setReg_out (s : State) (i : RegIdx) (v : Byte) : (s.setReg i v).out = s.out := rfl
@[simp] theorem State.setReg_mem (s : State) (i : RegIdx) (v : Byte) : (s.setReg i v).mem = s.mem := rfl
@[simp] theorem State.setReg_cfg (s : State) (i : RegIdx) (v : Byte) : (s.setReg i v).cfg = s.cfg := rfl

/-! ## setSp -/

@[simp] theorem State.setSp_regs (s : State) (v : Byte) : (s.setSp v).regs = s.regs.set 7 v := rfl
@[simp] theorem State.setSp_pc (s : State) (v : Byte) : (s.setSp v).pc = s.pc := rfl
@[simp] theorem State.setSp_ir (s : State) (v : Byte) : (s.setSp v).ir = s.ir := rfl
@[simp] theorem State.setSp_fl (s : State) (v : Byte) : (s.setSp v).fl = s.fl := rfl
@[simp] theorem State.setSp_status (s : State) (v : Byte) : (s.setSp v).status = s.status := rfl
@[simp] theorem State.setSp_out (s : State) (v : Byte) : (s.setSp v).out = s.out := rfl
@[simp] theorem State.setSp_mem (s : State) (v : Byte) : (s.setSp v).mem = s.mem := rfl
@[simp] theorem State.setSp_cfg (s : State) (v : Byte) : (s.setSp v).cfg = s.cfg := rfl

/-! ## setFlags -/

@[simp] theorem State.setFlags_regs (s : State) (f : Flags) : (s.setFlags f).regs = s.regs := rfl
@[simp] theorem State.setFlags_pc (s : State) (f : Flags) : (s.setFlags f).pc = s.pc := rfl
@[simp] theorem State.setFlags_ir (s : State) (f : Flags) : (s.setFlags f).ir = s.ir := rfl
@[simp] theorem State.setFlags_fl (s : State) (f : Flags) : (s.setFlags f).fl = f := rfl
@[simp] theorem State.setFlags_status (s : State) (f : Flags) : (s.setFlags f).status = s.status := rfl
@[simp] theorem State.setFlags_out (s : State) (f : Flags) : (s.setFlags f).out = s.out := rfl
@[simp] theorem State.setFlags_mem (s : State) (f : Flags) : (s.setFlags f).mem = s.mem := rfl
@[simp] theorem State.setFlags_cfg (s : State) (f : Flags) : (s.setFlags f).cfg = s.cfg := rfl

/-! ## emit -/

@[simp] theorem State.emit_regs (s : State) (v : Byte) : (s.emit v).regs = s.regs := rfl
@[simp] theorem State.emit_pc (s : State) (v : Byte) : (s.emit v).pc = s.pc := rfl
@[simp] theorem State.emit_ir (s : State) (v : Byte) : (s.emit v).ir = s.ir := rfl
@[simp] theorem State.emit_fl (s : State) (v : Byte) : (s.emit v).fl = s.fl := rfl
@[simp] theorem State.emit_status (s : State) (v : Byte) : (s.emit v).status = s.status := rfl
@[simp] theorem State.emit_out (s : State) (v : Byte) : (s.emit v).out = s.out ++ [v] := rfl
@[simp] theorem State.emit_mem (s : State) (v : Byte) : (s.emit v).mem = s.mem := rfl
@[simp] theorem State.emit_cfg (s : State) (v : Byte) : (s.emit v).cfg = s.cfg := rfl

/-! ## store -/

@[simp] theorem State.store_regs (s : State) (a : Addr) (v : Byte) : (s.store a v).regs = s.regs := rfl
@[simp] theorem State.store_pc (s : State) (a : Addr) (v : Byte) : (s.store a v).pc = s.pc := rfl
@[simp] theorem State.store_ir (s : State) (a : Addr) (v : Byte) : (s.store a v).ir = s.ir := rfl
@[simp] theorem State.store_fl (s : State) (a : Addr) (v : Byte) : (s.store a v).fl = s.fl := rfl
@[simp] theorem State.store_status (s : State) (a : Addr) (v : Byte) : (s.store a v).status = s.status := rfl
@[simp] theorem State.store_out (s : State) (a : Addr) (v : Byte) : (s.store a v).out = s.out := rfl
@[simp] theorem State.store_mem (s : State) (a : Addr) (v : Byte) : (s.store a v).mem = s.mem.write a v := rfl
@[simp] theorem State.store_cfg (s : State) (a : Addr) (v : Byte) : (s.store a v).cfg = s.cfg := rfl

/-! ## setStatus -/

@[simp] theorem State.setStatus_regs (s : State) (st : Status) : (s.setStatus st).regs = s.regs := rfl
@[simp] theorem State.setStatus_pc (s : State) (st : Status) : (s.setStatus st).pc = s.pc := rfl
@[simp] theorem State.setStatus_ir (s : State) (st : Status) : (s.setStatus st).ir = s.ir := rfl
@[simp] theorem State.setStatus_fl (s : State) (st : Status) : (s.setStatus st).fl = s.fl := rfl
@[simp] theorem State.setStatus_status (s : State) (st : Status) : (s.setStatus st).status = st := rfl
@[simp] theorem State.setStatus_out (s : State) (st : Status) : (s.setStatus st).out = s.out := rfl
@[simp] theorem State.setStatus_mem (s : State) (st : Status) : (s.setStatus st).mem = s.mem := rfl
@[simp] theorem State.setStatus_cfg (s : State) (st : Status) : (s.setStatus st).cfg = s.cfg := rfl

/-! ## fetchOpcode -/

@[simp] theorem State.fetchOpcode_regs (s : State) : s.fetchOpcode.regs = s.regs := rfl
@[simp] theorem State.fetchOpcode_pc (s : State) : s.fetchOpcode.pc = s.pc := rfl
@[simp] theorem State.fetchOpcode_ir (s : State) : s.fetchOpcode.ir = s.mem.read s.pc := rfl
@[simp] theorem State.fetchOpcode_fl (s : State) : s.fetchOpcode.fl = s.fl := rfl
@[simp] theorem State.fetchOpcode_status (s : State) : s.fetchOpcode.status = s.status := rfl
@[simp] theorem State.fetchOpcode_out (s : State) : s.fetchOpcode.out = s.out := rfl
@[simp] theorem State.fetchOpcode_mem (s : State) : s.fetchOpcode.mem = s.mem := rfl
@[simp] theorem State.fetchOpcode_cfg (s : State) : s.fetchOpcode.cfg = s.cfg := rfl

/-! ## takeFault -/

@[simp] theorem takeFault_regs (e : FaultCause) (s : State) : (takeFault e s).regs = s.regs := rfl
@[simp] theorem takeFault_pc (e : FaultCause) (s : State) : (takeFault e s).pc = s.pc := rfl
@[simp] theorem takeFault_ir (e : FaultCause) (s : State) : (takeFault e s).ir = s.ir := rfl
@[simp] theorem takeFault_fl (e : FaultCause) (s : State) : (takeFault e s).fl = s.fl := rfl
@[simp] theorem takeFault_status (e : FaultCause) (s : State) : (takeFault e s).status = e.status := rfl
@[simp] theorem takeFault_out (e : FaultCause) (s : State) : (takeFault e s).out = s.out := rfl
@[simp] theorem takeFault_mem (e : FaultCause) (s : State) : (takeFault e s).mem = s.mem := rfl
@[simp] theorem takeFault_cfg (e : FaultCause) (s : State) : (takeFault e s).cfg = s.cfg := rfl

/-! ## Reading a register -/

theorem State.setReg_reg (s : State) (i k : RegIdx) (v : Byte) :
    (s.setReg i v).reg k = if k = i then v else s.reg k := by
  simp only [State.reg, State.setReg, Fin.getElem_fin, Vector.getElem_set, Fin.ext_iff]
  by_cases h : i.val = k.val
  · simp [h]
  · simp [h, Ne.symm h]

@[simp] theorem State.setReg_reg_self (s : State) (i : RegIdx) (v : Byte) : (s.setReg i v).reg i = v := by
  simp [State.setReg_reg]

theorem State.setReg_reg_ne (s : State) (i k : RegIdx) (v : Byte) (h : k ≠ i) :
    (s.setReg i v).reg k = s.reg k := by
  simp [State.setReg_reg, h]

@[simp] theorem State.setSp_sp (s : State) (v : Byte) : (s.setSp v).sp = v := s.setReg_reg_self 7 v

theorem State.setSp_reg_ne (s : State) (k : RegIdx) (v : Byte) (h : k ≠ 7) : (s.setSp v).reg k = s.reg k :=
  s.setReg_reg_ne 7 k v h

@[simp] theorem State.setFlags_reg (s : State) (f : Flags) (k : RegIdx) : (s.setFlags f).reg k = s.reg k := rfl
@[simp] theorem State.emit_reg (s : State) (v : Byte) (k : RegIdx) : (s.emit v).reg k = s.reg k := rfl
@[simp] theorem State.store_reg (s : State) (a : Addr) (v : Byte) (k : RegIdx) : (s.store a v).reg k = s.reg k := rfl
@[simp] theorem State.setStatus_reg (s : State) (st : Status) (k : RegIdx) : (s.setStatus st).reg k = s.reg k := rfl
@[simp] theorem State.fetchOpcode_reg (s : State) (k : RegIdx) : s.fetchOpcode.reg k = s.reg k := rfl

end Sys2Proof.Machine
end

