-- ==== Sys2Proof/Laws/Ops.lean ====
section
/-! SUPPORT. One lemma for each shared operation that says everything it can answer; proofs about a meaning cite these
and do not unfold the operation. -/

namespace Sys2Proof.Machine

/-! ## Register bytes -/

theorem regByte_toNat (i : RegIdx) : (regByte i).toNat = i.val := by
  have := i.isLt
  simp only [regByte, BitVec.toNat_ofNat]
  omega

theorem regByte_le (i : RegIdx) : (regByte i).toNat ≤ 7 := by
  have := i.isLt
  rw [regByte_toNat]
  omega

theorem regByte_inj {i k : RegIdx} (h : regByte i = regByte k) : i = k :=
  Fin.ext (by rw [← regByte_toNat i, ← regByte_toNat k, h])

/-- A byte in range names a register (R49). -/
theorem exists_regByte {n : Byte} (h : n.toNat ≤ 7) : ∃ i, n = regByte i :=
  ⟨⟨n.toNat, by omega⟩, BitVec.eq_of_toNat_eq (by rw [regByte_toNat])⟩

/-! ## Operand forms -/

/-- `check_reg` of a register in range runs the rest with that register (R50). -/
@[simp] theorem withReg_regByte (i : RegIdx) (s : State) (k : RegIdx → Host.Outcome State Fault Refusal) :
    withReg (regByte i) s k = k i := by
  unfold withReg
  rw [dif_pos (regByte_le i)]
  congr 1
  exact Fin.ext (regByte_toNat i)

/-- `check_reg` of an index above 7 raises InvalidRegister (R50, R99). -/
theorem withReg_bad {n : Byte} (h : 7 < n.toNat) (s : State) (k : RegIdx → Host.Outcome State Fault Refusal) :
    withReg n s k = raise (.invalidRegister n) s := by
  unfold withReg
  rw [dif_neg (by omega)]

/-- All that `withReg` can answer. -/
theorem withReg_cases (n : Byte) (s : State) (k : RegIdx → Host.Outcome State Fault Refusal) :
    (∃ i, n = regByte i ∧ withReg n s k = k i) ∨
    (7 < n.toNat ∧ withReg n s k = raise (.invalidRegister n) s) := by
  by_cases h : n.toNat ≤ 7
  · obtain ⟨i, rfl⟩ := exists_regByte h
    exact .inl ⟨i, rfl, withReg_regByte i s k⟩
  · exact .inr ⟨by omega, withReg_bad (by omega) s k⟩

@[simp] theorem withRegs_regByte (i j : RegIdx) (s : State)
    (k : RegIdx → RegIdx → Host.Outcome State Fault Refusal) :
    withRegs (regByte i) (regByte j) s k = k i j := by
  simp [withRegs]

/-- All that `withRegs` can answer: operandA is checked before operandB (R103). -/
theorem withRegs_cases (a b : Byte) (s : State) (k : RegIdx → RegIdx → Host.Outcome State Fault Refusal) :
    (∃ i j, a = regByte i ∧ b = regByte j ∧ withRegs a b s k = k i j) ∨
    (7 < a.toNat ∧ withRegs a b s k = raise (.invalidRegister a) s) ∨
    (a.toNat ≤ 7 ∧ 7 < b.toNat ∧ withRegs a b s k = raise (.invalidRegister b) s) := by
  rcases withReg_cases a s (fun i => withReg b s fun j => k i j) with ⟨i, rfl, h⟩ | ⟨ha, h⟩
  · rcases withReg_cases b s (fun j => k i j) with ⟨j, rfl, h'⟩ | ⟨hb, h'⟩
    · exact .inl ⟨i, j, rfl, rfl, h.trans h'⟩
    · exact .inr (.inr ⟨regByte_le i, hb, h.trans h'⟩)
  · exact .inr (.inl ⟨ha, h⟩)

/-! ## Stack-pointer manager -/

/-- All that `pushSlot` can answer (R83, R85). -/
theorem pushSlot_cases (s : State) (k : Addr → State → Host.Outcome State Fault Refusal) :
    (s.cfg.stackFloor.toNat < s.sp.toNat ∧ pushSlot s k = k (s.sp - 1) (s.setSp (s.sp - 1))) ∨
    (s.sp.toNat ≤ s.cfg.stackFloor.toNat ∧ pushSlot s k = raise (.stackOverflow s.sp) s) := by
  unfold pushSlot
  split
  · rename_i h
    exact .inr ⟨h, rfl⟩
  · rename_i h
    exact .inl ⟨by omega, rfl⟩

/-- All that `popSlot` can answer (R84, R86). -/
theorem popSlot_cases (s : State) (k : Byte → State → Host.Outcome State Fault Refusal) :
    (s.sp.toNat < s.cfg.spInit.toNat ∧ popSlot s k = k (s.mem.read s.sp) (s.setSp (s.sp + 1))) ∨
    (s.cfg.spInit.toNat ≤ s.sp.toNat ∧ popSlot s k = raise (.stackUnderflow s.sp) s) := by
  unfold popSlot
  split
  · rename_i h
    exact .inr ⟨h, rfl⟩
  · rename_i h
    exact .inl ⟨by omega, rfl⟩

/-! ## Fetch -/

/-- All that a tick can do (R58, R59, R61). -/
theorem step_cases (s : State) :
    (s.status ≠ .running ∧ step s = .next s) ∨
    (∃ e, s.status = .running ∧ s.fetched = .error e ∧
      step s = raise (.invalidOpcode (s.mem.read s.pc) s.pc) s.fetchOpcode) ∨
    (∃ i, s.status = .running ∧ s.fetched = .ok i ∧ step s = exec i s.fetchOpcode) := by
  by_cases h : s.status = .running
  · cases hf : s.fetched with
    | error e => exact .inr (.inl ⟨e, h, rfl, by simp only [step, if_pos h, hf]⟩)
    | ok i => exact .inr (.inr ⟨i, h, rfl, by simp only [step, if_pos h, hf]⟩)
  · exact .inl ⟨h, by simp only [step, if_neg h]⟩

/-- The dispatch table answers only a dispatched mnemonic whose opcode is the byte (R52, R62). -/
theorem dispatch_some {c : Config} {op : Byte} {m : Mnemonic} (h : dispatch c op = some m) :
    c.dispatched m = true ∧ c.opcodes.get m = op := by
  have := List.find?_some h
  simpa using this

/-- Three bytes are an instruction exactly when the first is in the dispatch table (R61, R64). -/
theorem fetched_eq (s : State) :
    s.fetched = match dispatch s.cfg (s.mem.read s.pc) with
      | none => .error (.invalidOpcode (s.mem.read s.pc))
      | some m => .ok (instrOf m (s.mem.read (s.pc + 1)) (s.mem.read (s.pc + 2))) := by
  simp only [State.fetched, State.fetchBytes, decode]
  cases dispatch s.cfg (s.mem.read s.pc) with
  | none => rfl
  | some m => cases m <;> rfl

end Sys2Proof.Machine
end

