-- ==== Sys2Proof/Laws/PerInstr.lean ====
section
/-! SUPPORT. Statements about every instruction as syntax, one lemma per constructor (LAWS.json names the family). -/

namespace Sys2Proof.Laws.EncodedLength

/-- The number of bytes an instruction encodes to is the length its opcode byte carries, `ir[7:6] + 1`
(spec 30_encoding.md R47). -/
def Statement (i : Instr) : Prop :=
  ∀ c : Config, c.countsMatch → c.dispatched i.mnemonic = true →
    (encode c i).length = instrLen (c.opcodes.get i.mnemonic)

theorem instrLen_eq (op : Byte) : instrLen op = op.toNat / 64 + 1 := by
  have h := op.isLt
  simp only [instrLen, fieldAA, BitVec.extractLsb'_toNat, Nat.shiftRight_eq_div_pow]
  omega

theorem mnemonic_mem_all (m : Mnemonic) : m ∈ Mnemonic.all := by cases m <;> decide

theorem of_count {c : Config} (hc : c.countsMatch) {m : Mnemonic} (hm : c.dispatched m = true) {n : Nat}
    (hn : m.operandCount = n) : n + 1 = instrLen (c.opcodes.get m) := by
  rw [instrLen_eq, hc m (mnemonic_mem_all m) hm, hn]

theorem hlt : Statement .hlt := fun _ hc hm => of_count hc hm rfl
theorem ldi (r imm : Byte) : Statement (.ldi r imm) := fun _ hc hm => of_count hc hm rfl
theorem prn (r : Byte) : Statement (.prn r) := fun _ hc hm => of_count hc hm rfl
theorem add (a b : Byte) : Statement (.add a b) := fun _ hc hm => of_count hc hm rfl
theorem mul (a b : Byte) : Statement (.mul a b) := fun _ hc hm => of_count hc hm rfl
theorem cmp (a b : Byte) : Statement (.cmp a b) := fun _ hc hm => of_count hc hm rfl
theorem and (a b : Byte) : Statement (.and a b) := fun _ hc hm => of_count hc hm rfl
theorem push (r : Byte) : Statement (.push r) := fun _ hc hm => of_count hc hm rfl
theorem pop (r : Byte) : Statement (.pop r) := fun _ hc hm => of_count hc hm rfl
theorem call (r : Byte) : Statement (.call r) := fun _ hc hm => of_count hc hm rfl
theorem jmp (r : Byte) : Statement (.jmp r) := fun _ hc hm => of_count hc hm rfl
theorem jeq (r : Byte) : Statement (.jeq r) := fun _ hc hm => of_count hc hm rfl
theorem jne (r : Byte) : Statement (.jne r) := fun _ hc hm => of_count hc hm rfl

end Sys2Proof.Laws.EncodedLength
end

