-- ==== Sys2Proof/Tests/Slice0.lean ====
section
/-! SUPPORT. Tests. Expected values are those of spec/95_test_vectors.md (the id of the vector is in each comment) or are
worked by hand from the rule named; the witnesses at the end meet the hypotheses of the statements. -/

namespace Sys2Proof.Tests

open Sys2Proof Sys2Proof.Machine

/-! ## Helpers -/

/-- The state with bytes poked from an address on (R29). -/
def load : Addr → List Byte → State → State
  | _, [], s => s
  | a, b :: bs, s => load (a + 1) bs (poke a b s)

/-- The reset state with a program at address 0x00 (R119). -/
def code (bs : List Byte) : State := load 0x00 bs State.reset

/-- The reset state with AND dispatched and a program at address 0x00. -/
def andCode (bs : List Byte) : State := load 0x00 bs (State.atReset andConfig [])

/-- The state of an outcome. -/
def next? : Host.Outcome State Fault Refusal → Option State
  | .next t => some t
  | .fault _ => none
  | .refused _ => none

/-- `s` with a register set, for the "before" column of a vector. -/
def reg (i : RegIdx) (v : Byte) (s : State) : State := s.setReg i v

/-- `s` with the pc set and bytes there. -/
def here (a : Addr) (bs : List Byte) (s : State) : State := { load a bs s with pc := a }

/-- `s` with FL set: E, G, L. -/
def flags (e g l : Bool) (s : State) : State := { s with fl := ⟨e, g, l⟩ }

/-- One field of the state after a tick. -/
def tick {α : Type} (f : State → α) (s : State) : Option α := (next? (step s)).map f

/-! ## WellFormed refuses -/

/-- R50: index 8 is out of range, 7 is in range. -/
theorem test_index_eight_refused :
    ¬ (Instr.push 8).WellFormed defaultConfig ∧ (Instr.push 7).WellFormed defaultConfig := by decide

/-- R50: the second index counts too. -/
theorem test_second_index_refused :
    ¬ (Instr.add 0 8).WellFormed defaultConfig ∧ (Instr.add 0 7).WellFormed defaultConfig := by decide

/-- R81: an immediate is never checked. -/
theorem test_immediate_unchecked : (Instr.ldi 0 0xFF).WellFormed defaultConfig := by decide

/-- R62, R78: AND is well formed only where it is dispatched. -/
theorem test_and_undispatched_refused :
    ¬ (Instr.and 0 1).WellFormed defaultConfig ∧ (Instr.and 0 1).WellFormed andConfig := by decide

/-- R6: the defaults are allowed, with and without AND. -/
theorem test_default_config_allowed : defaultConfig.WellFormed := ⟨by decide, by decide, by decide⟩
theorem test_and_config_allowed : andConfig.WellFormed := ⟨by decide, by decide, by decide⟩

/-- R6: STACK_FLOOR < SP_INIT. -/
theorem test_floor_at_top_refused : ¬ ({ defaultConfig with stackFloor := 0xF4 } : Config).WellFormed :=
  fun h => absurd h.floor (by decide)

/-- R6, R47: HLT takes no operand, so 0x41 (AA = 1) is no opcode of it. -/
theorem test_wrong_count_refused :
    ¬ ({ defaultConfig with opcodes := { defaultOpcodes with hlt := 0x41 } } : Config).WellFormed :=
  fun h => absurd h.counts (by decide)

/-- R6: PUSH and POP with one opcode. -/
theorem test_same_opcode_refused :
    ¬ ({ defaultConfig with opcodes := { defaultOpcodes with pop := 0x45 } } : Config).WellFormed :=
  fun h => absurd h.distinct (by decide)

/-! ## Decode: each constructor's word, bit by bit from R46, R48 and R51 -/

theorem test_decode_hlt : decode defaultConfig [0b00000001] = .ok (.hlt, []) := by rfl
theorem test_decode_ldi : decode defaultConfig [0b10000010, 0b00000100, 0b11111111] = .ok (.ldi 4 255, []) := by rfl
theorem test_decode_prn : decode defaultConfig [0b01000111, 0b00000011] = .ok (.prn 3, []) := by rfl
theorem test_decode_add : decode defaultConfig [0b10100000, 0b00000010, 0b00000101] = .ok (.add 2 5, []) := by rfl
theorem test_decode_mul : decode defaultConfig [0b10100010, 0b00000110, 0b00000001] = .ok (.mul 6 1, []) := by rfl
theorem test_decode_cmp : decode defaultConfig [0b10100111, 0b00000111, 0b00000000] = .ok (.cmp 7 0, []) := by rfl
theorem test_decode_and : decode andConfig [0b10101000, 0b00000001, 0b00000010] = .ok (.and 1 2, []) := by rfl
theorem test_decode_push : decode defaultConfig [0b01000101, 0b00000111] = .ok (.push 7, []) := by rfl
theorem test_decode_pop : decode defaultConfig [0b01000110, 0b00000010] = .ok (.pop 2, []) := by rfl
theorem test_decode_call : decode defaultConfig [0b01010000, 0b00000101] = .ok (.call 5, []) := by rfl
theorem test_decode_jmp : decode defaultConfig [0b01010100, 0b00000110] = .ok (.jmp 6, []) := by rfl
theorem test_decode_jeq : decode defaultConfig [0b01010101, 0b00000001] = .ok (.jeq 1, []) := by rfl
theorem test_decode_jne : decode defaultConfig [0b01010110, 0b00000100] = .ok (.jne 4, []) := by rfl

/-- R53: the RET of the course machine, AA = 3, and AND where it is not dispatched. -/
theorem test_decode_illegal :
    decode defaultConfig [0x11, 0, 0] = .error (.invalidOpcode 0x11) ∧
    decode defaultConfig [0xC0, 0, 0] = .error (.invalidOpcode 0xC0) ∧
    decode defaultConfig [0xA8, 0, 1] = .error (.invalidOpcode 0xA8) := ⟨rfl, rfl, rfl⟩

theorem test_decode_short : decode defaultConfig [0x82, 0x00] = .error (.truncated 0x82) := by rfl

/-- R56: the opcode byte, then the operand bytes in the order written. -/
theorem test_encode_add : encode defaultConfig (.add 2 5) = [0xA0, 0x02, 0x05] := by decide

/-- opcode_table.json numbers bits from the first byte: 0x050482 is the bytes 82 04 05; 0x0347 is 47 03. -/
theorem test_table_word_ldi : decodeTableWord 24 0x050482 = some (.ldi 4 5) := by rfl
theorem test_table_word_prn : decodeTableWord 16 0x0347 = some (.prn 3) := by rfl
theorem test_table_word_and : decodeTableWord 24 0x0201A8 = some (.and 1 2) := by rfl

/-- A table word placed at reset is what the next tick runs. -/
theorem test_fetch_word_ldi : tick (·.reg 4) (State.reset.withFetchWord 24 0x050482) = some 5 := by decide
theorem test_fetch_word_and :
    tick (·.status) (State.reset.withFetchWord 24 0x0201A8) = some .running := by decide

/-- R56, the source's scenario P1: `LDI R0,5; LDI R1,3; ADD R0,R1; PRN R0; HLT`. -/
theorem test_assemble_p1 :
    assemble defaultConfig ("LDI R0,5; LDI R1,3; ADD R0,R1; PRN R0; HLT").toList =
      some [0x82, 0x00, 0x05, 0x82, 0x01, 0x03, 0xA0, 0x00, 0x01, 0x47, 0x00, 0x01] := by decide +kernel

/-- R56: hexadecimal immediates; R8 is no register; there is no RET. -/
theorem test_assemble_forms :
    parseInstr ("LDI R2, 0x11").toList = some (.ldi 2 0x11) ∧ parseInstr ("PRN R8").toList = none ∧
    parseInstr ("LDI R0,256").toList = none ∧ parseInstr ("RET").toList = none := by decide +kernel

/-! ## Reset (R116) -/

theorem test_reset : State.reset.reg 7 = 0xF4 ∧ State.reset.reg 0 = 0 ∧ State.reset.statusOut = 0 := by decide

/-! ## The cycle: vectors D1, D5, D7, D8, D9 -/

theorem test_D1_zero_memory :
    next? (step State.reset) = some { State.reset with status := .invalidOpcode, ir := 0x00 } := by decide

theorem test_D5_halted_stays :
    next? (step { code [0x82, 0x00, 0x05] with status := .halted }) =
      some { code [0x82, 0x00, 0x05] with status := .halted } := by decide

theorem test_D7_wraps :
    tick (fun t => (t.reg 5, t.pc)) (here 0xFE [0x82, 0x05, 0x82] State.reset) = some (0x82, 0x01) := by decide

theorem test_D8_halt_at_top :
    tick (fun t => (t.status, t.pc)) (here 0xFF [0x01] State.reset) = some (.halted, 0x00) := by decide

theorem test_D9_operandB_ignored : tick (·.pc) (here 0x30 [0x47, 0x00, 0x01] State.reset) = some 0x32 := by decide

/-- R39: an invalid opcode reads one byte, LDI three, POP a fourth. -/
theorem test_accesses :
    tickAccesses State.reset = [.read 0 0] ∧
    tickAccesses (code [0x82, 0x00, 0x05]) = [.read 0 0x82, .read 1 0x00, .read 2 0x05] ∧
    tickAccesses (reg 7 0xF3 (code [0x46, 0x01])) = [.read 0 0x46, .read 1 0x01, .read 2 0, .read 0xF3 0] := by decide

/-! ## ALU: vectors A3, A5, A7, A8, A11, A13, A14, C2, C4, C6 -/

theorem test_A3_add_wraps :
    tick (fun t => (t.reg 0, t.reg 1, t.pc)) (reg 0 0xC8 (reg 1 0x64 (code [0xA0, 0x00, 0x01]))) =
      some (0x2C, 0x64, 3) := by decide

theorem test_A5_add_into_sp :
    tick (fun t => (t.reg 7, t.status)) (reg 0 0x10 (code [0xA0, 0x07, 0x00])) = some (0x04, .running) := by decide

theorem test_A7_mul_same_register :
    tick (·.reg 2) (reg 2 0x10 (code [0xA2, 0x02, 0x02])) = some 0x00 := by decide

theorem test_A8_mul_low_byte :
    tick (fun t => (t.reg 0, t.fl)) (flags true false false (reg 0 0xFF (reg 1 0xFF (code [0xA2, 0x00, 0x01])))) =
      some (0x01, ⟨true, false, false⟩) := by decide

theorem test_A11_and :
    tick (fun t => (t.reg 0, t.reg 1)) (reg 0 0xF0 (reg 1 0x3C (andCode [0xA8, 0x00, 0x01]))) =
      some (0x30, 0x3C) := by decide

/-- D4: without AND, 0xA8 is no instruction. -/
theorem test_D4_no_and :
    tick (fun t => (t.status, t.reg 0, t.pc)) (reg 0 0xF0 (reg 1 0x3C (code [0xA8, 0x00, 0x01]))) =
      some (.invalidOpcode, 0xF0, 0) := by decide

theorem test_A13_bad_index :
    tick (fun t => (t.status, t.pc)) (code [0xA0, 0x08, 0x00]) = some (.invalidRegister, 0) := by decide

/-- A14, R102: the bad index 0xFF is operandB, and the host can tell it. -/
theorem test_A14_bad_operandB :
    tick faultReport (code [0xA2, 0x00, 0xFF]) = some (some (.invalidRegister 0xFF)) := by decide

theorem test_C4_cmp_unsigned :
    tick (·.fl.toByte) (reg 1 0xFF (code [0xA7, 0x00, 0x01])) = some 0x04 := by decide

theorem test_C6_cmp_clears :
    tick (·.fl.toByte) (flags true false false (reg 0 0x80 (reg 1 0x7F (code [0xA7, 0x00, 0x01])))) =
      some 0x02 := by decide

/-! ## HLT, LDI, PRN: vectors B3, B4, B6, B7, B8 -/

theorem test_B3_ldi_sp : tick (fun t => (t.sp, t.pc)) (code [0x82, 0x07, 0x10]) = some (0x10, 3) := by decide

theorem test_B4_ldi_bad_index :
    next? (step (code [0x82, 0x08, 0x01])) =
      some { code [0x82, 0x08, 0x01] with ir := 0x82, status := .invalidRegister } := by decide

theorem test_B6_prn_sp : tick (fun t => (t.out, t.pc)) (code [0x47, 0x07]) = some ([244], 2) := by decide

theorem test_B7_prn_bad_index :
    tick (fun t => (t.out, t.status)) (code [0x47, 0x09]) = some ([], .invalidRegister) := by decide

theorem test_B8_halt :
    next? (step (here 0x0B [0x01] State.reset)) =
      some { here 0x0B [0x01] State.reset with ir := 0x01, status := .halted, pc := 0x0C } := by decide

/-! ## PUSH and POP: vectors K1, K3, K4, K6 to K12 -/

theorem test_K1_push :
    tick (fun t => (t.sp, t.mem.read 0xF3, t.pc)) (reg 0 0x2A (code [0x45, 0x00])) = some (0xF3, 0x2A, 2) := by decide

/-- K3: POP at reset underflows and changes nothing else. -/
theorem test_K3_pop_at_reset :
    next? (step (code [0x46, 0x00])) = some { code [0x46, 0x00] with ir := 0x46, status := .stackUnderflow } := by decide

/-- K4: PUSH with SP = 00 overflows. -/
theorem test_K4_push_at_zero :
    next? (step (reg 7 0x00 (code [0x45, 0x00]))) =
      some { reg 7 0x00 (code [0x45, 0x00]) with ir := 0x45, status := .stackOverflow } := by decide

/-- K6, K7: `PUSH R7` stores the old SP. -/
theorem test_K6_push_sp :
    tick (fun t => (t.sp, t.mem.read 0xF3)) (code [0x45, 0x07]) = some (0xF3, 0xF4) := by decide

/-- K8, the second step: `POP R7` ends with the popped value 0x33. -/
theorem test_K8_pop_into_sp :
    tick (fun t => (t.sp, t.status)) (reg 7 0xF3 (load 0xF3 [0x33] (code [0x46, 0x07]))) =
      some (0x33, .running) := by decide

/-- K9: SP above SP_INIT underflows. -/
theorem test_K9_pop_above_top : tick (·.status) (reg 7 0xFA (code [0x46, 0x00])) = some .stackUnderflow := by decide

/-- K11: STACK_FLOOR = 0x80. -/
theorem test_K11_floor :
    tick (fun t => (t.status, t.sp))
      (reg 7 0x80 (load 0 [0x45, 0x00] (State.atReset { defaultConfig with stackFloor := 0x80 } []))) =
      some (.stackOverflow, 0x80) := by decide

/-- K12: the index is checked before the stack bound. -/
theorem test_K12_index_first : tick (·.status) (reg 7 0x00 (code [0x45, 0x09])) = some .invalidRegister := by decide

/-! ## Control transfer: vectors J1 to J4, J6 to J10, J12 -/

theorem test_J1_call :
    tick (fun t => (t.sp, t.mem.read 0xF3, t.pc)) (reg 1 0x0B (here 0x06 [0x50, 0x01] State.reset)) =
      some (0xF3, 0x08, 0x0B) := by decide

/-- J2: `CALL R7` jumps to the old SP. -/
theorem test_J2_call_sp :
    tick (fun t => (t.sp, t.mem.read 0xF3, t.pc)) (code [0x50, 0x07]) = some (0xF3, 0x02, 0xF4) := by decide

theorem test_J5_jmp : tick (·.pc) (reg 6 0x08 (code [0x54, 0x06])) = some 0x08 := by decide

theorem test_J6_jeq_taken :
    tick (·.pc) (flags true false false (reg 2 0x11 (here 0x09 [0x55, 0x02] State.reset))) = some 0x11 := by decide

theorem test_J7_jeq_not_taken :
    tick (·.pc) (flags false true false (reg 2 0x11 (here 0x09 [0x55, 0x02] State.reset))) = some 0x0B := by decide

theorem test_J9_jne_not_taken :
    tick (·.pc) (flags true false false (reg 3 0x0C (here 0x14 [0x56, 0x03] State.reset))) = some 0x16 := by decide

/-- J10: JNE before any CMP jumps. -/
theorem test_J10_jne_at_reset : tick (·.pc) (reg 3 0x0C (code [0x56, 0x03])) = some 0x0C := by decide

/-- J12: the index of a jump that is not taken is checked. -/
theorem test_J12_untaken_bad_index :
    tick (·.status) (flags false true false (code [0x55, 0x08])) = some .invalidRegister := by decide

/-- P-3: the decode comes first. -/
theorem test_P3_opcode_first : tick (·.status) (code [0xC7, 0x08, 0x08]) = some .invalidOpcode := by decide

/-! ## Witnesses

One for each statement with hypotheses, meeting all of them together; where a statement has several clauses, one conjunct
for each, at a value on the edge of its range. -/

/-- Every parameter choice and memory of the premises exists. -/
theorem witness_ResetLeavesTheStatedValues : ∃ s t, step (resetInput s) = .next t := ⟨code [0x01], _, rfl⟩

theorem witness_ResetMeetsTheInvariant : ∃ s : State, s.mem.wf ∧ s.cfg.WellFormed :=
  ⟨code [0x82, 0x00, 0x05], by decide, test_default_config_allowed⟩

/-- A PUSH at the last slot above the floor, so memory changes. -/
theorem witness_StepKeepsTheInvariant : ∃ s t : State, s.Inv ∧ step s = .next t :=
  ⟨reg 7 0x01 (reg 0 0x77 (code [0x45, 0x00])), _,
    ⟨by decide, test_default_config_allowed, by decide, by decide, by decide⟩, rfl⟩

theorem witness_StepRunsTheDecodedInstruction :
    ∃ (s : State) (i : Instr), s.status = .running ∧ s.decodesTo i :=
  ⟨here 0xFE [0x82, 0x05, 0x82] State.reset, .ldi 5 0x82, rfl, _, rfl⟩

theorem witness_InvalidOpcodeHaltsAtItsAddress :
    ∃ s : State, s.status = .running ∧ dispatch s.cfg (s.mem.read s.pc) = none :=
  ⟨here 0x20 [0xC0] State.reset, rfl, by decide⟩

theorem witness_TerminalStatesAreFinal : ∃ s : State, s.status ≠ .running :=
  ⟨State.reset.setStatus .stackUnderflow, by decide⟩

theorem witness_DispatchIsAnExactMatch :
    (∃ c : Config, c.opcodesDistinct) ∧
    (∃ (s : State) (m : Mnemonic), s.status = .running ∧ dispatch s.cfg (s.mem.read s.pc) = some m) ∧
    (∃ s t : State, step s = .next t) :=
  ⟨⟨andConfig, by decide⟩, ⟨andCode [0xA8], .and, rfl, by decide⟩, ⟨State.reset, _, rfl⟩⟩

theorem witness_UnlistedBytesAreIllegal :
    (∃ op : Byte, 0xC0 ≤ op.toNat) ∧
    (∃ s : State, s.status = .running ∧ dispatch s.cfg (s.mem.read s.pc) = none) :=
  ⟨⟨0xC0, by decide⟩, ⟨State.reset, rfl, by decide⟩⟩

theorem witness_LengthIsCountFieldPlusOne :
    (∃ (c : Config) (op : Byte) (m : Mnemonic), c.countsMatch ∧ dispatch c op = some m) ∧
    (∃ (c : Config) (op : Byte), c.countsMatch ∧ (op >>> 6).toNat = 3) :=
  ⟨⟨andConfig, 0xA8, .and, by decide, by decide⟩, ⟨defaultConfig, 0xC0, by decide, by decide⟩⟩

theorem witness_DecodeOfEncodeIsTheInstruction :
    ∃ (c : Config) (i : Instr), c.opcodesDistinct ∧ c.dispatched i.mnemonic = true :=
  ⟨andConfig, .and 0xFF 0x08, by decide, by decide⟩

theorem witness_EncodeOfDecodeIsTheBytes :
    ∃ (c : Config) (bs : List Byte) (i : Instr) (rest : List Byte), decode c bs = .ok (i, rest) :=
  ⟨defaultConfig, [0x47, 0xFF, 0x01], .prn 0xFF, [0x01], rfl⟩

theorem witness_UnusedOperandBytesAreIgnored :
    (∃ (c : Config) (op : Byte) (m : Mnemonic), dispatch c op = some m ∧ m.format = .f0) ∧
    (∃ (c : Config) (op : Byte) (m : Mnemonic), dispatch c op = some m ∧ m.format = .f1r) :=
  ⟨⟨defaultConfig, 0x01, .hlt, by decide, rfl⟩, ⟨defaultConfig, 0x56, .jne, by decide, rfl⟩⟩

theorem witness_HltHalts : ∃ s t : State, s.ir = 0x01 ∧ exec .hlt s = .next t :=
  ⟨{ State.reset with ir := 0x01, pc := 0xFF }, _, rfl, rfl⟩

/-- The first bad register index, alone and in either place (LdiLoadsTheImmediate, PrnEmitsTheRegister,
AddWritesTheWrappedSum, MulWritesTheLowByteOfTheProduct, CmpWritesAllThreeFlags, JmpGoesToTheRegister). -/
theorem witness_bad_index : (∃ r : Byte, 7 < r.toNat) ∧ ∃ a b : Byte, 7 < a.toNat ∨ 7 < b.toNat :=
  ⟨⟨8, by decide⟩, ⟨7, 8, by decide⟩⟩

theorem witness_CmpLeavesOneFlagSet :
    (∃ (s t : State) (a b : RegIdx), exec (.cmp (regByte a) (regByte b)) s = .next t ∧ s.regs[a] = s.regs[b]) ∧
    (∃ (s t : State) (a b : RegIdx),
      exec (.cmp (regByte a) (regByte b)) s = .next t ∧ s.regs[b].toNat < s.regs[a].toNat) ∧
    (∃ (s t : State) (a b : RegIdx),
      exec (.cmp (regByte a) (regByte b)) s = .next t ∧ s.regs[a].toNat < s.regs[b].toNat) ∧
    (∃ s t : State, step s = .next t ∧ t.fl.toByte = 0x00) :=
  ⟨⟨State.reset, _, 6, 6, rfl, by decide⟩, ⟨State.reset, _, 7, 0, rfl, by decide⟩,
    ⟨reg 0 0xFF State.reset, _, 7, 0, rfl, by decide⟩, ⟨State.reset, _, rfl, by decide⟩⟩

theorem witness_AndWritesTheBitwiseAnd :
    (∃ s : State, s.cfg.andDispatched = true ∧ 7 < (0x08 : Byte).toNat) ∧
    (∃ s : State, s.cfg.opcodes = defaultOpcodes ∧ s.cfg.andDispatched = false ∧ s.status = .running ∧
      s.mem.read s.pc = 0xA8) :=
  ⟨⟨andCode [], by decide⟩, ⟨code [0xA8, 0x00, 0x01], by decide⟩⟩

/-- SP one above the floor and at it (PushStoresTheOldRegister, CallPushesTheReturnAddressAndJumps). -/
theorem witness_push_bounds :
    (∃ s : State, s.cfg.stackFloor.toNat < s.regs[7].toNat) ∧
    (∃ s : State, s.regs[7].toNat ≤ s.cfg.stackFloor.toNat) ∧ ∃ r : Byte, 7 < r.toNat :=
  ⟨⟨reg 7 0x01 State.reset, by decide⟩, ⟨reg 7 0x00 State.reset, by decide⟩, ⟨8, by decide⟩⟩

/-- SP one below the top and at it. -/
theorem witness_PopLoadsTheTopOfStack :
    (∃ s : State, s.regs[7].toNat < s.cfg.spInit.toNat) ∧
    (∃ s : State, s.cfg.spInit.toNat ≤ s.regs[7].toNat) ∧ ∃ r : Byte, 7 < r.toNat :=
  ⟨⟨reg 7 0xF3 State.reset, by decide⟩, ⟨State.reset, by decide⟩, ⟨8, by decide⟩⟩

/-- E set and clear (JeqJumpsWhenEqual, JneJumpsWhenNotEqual). -/
theorem witness_conditional_jumps :
    (∃ s : State, s.fl.e = true) ∧ (∃ s : State, s.fl.e = false) ∧ ∃ r : Byte, 7 < r.toNat :=
  ⟨⟨flags true false false State.reset, rfl⟩, ⟨State.reset, rfl⟩, ⟨8, by decide⟩⟩

/-- One instruction of each arm of the conclusion; both ways of a conditional jump. -/
theorem witness_TicksLandAtTheNextInstruction :
    ∀ x ∈ [(code [0x01], Instr.hlt), (here 0xFE [0x47, 0x07] State.reset, .prn 7),
        (here 0xFE [0xA0, 0x00, 0x01] State.reset, .add 0 1), (reg 7 0x01 (code [0x50, 0x07]), .call 7),
        (code [0x54, 0x06], .jmp 6), (flags true false false (code [0x55, 0x02]), .jeq 2), (code [0x55, 0x02], .jeq 2),
        (flags true false false (code [0x56, 0x03]), .jne 3), (code [0x56, 0x03], .jne 3)],
      x.1.cfg.countsMatch ∧ x.1.status = .running ∧ x.1.decodesTo x.2 ∧
        ∃ t, step x.1 = .next t ∧ t.status.isFault = false := by
  simp only [List.forall_mem_cons]
  refine ⟨?_, ?_, ?_, ?_, ?_, ?_, ?_, ?_, ?_, by simp⟩ <;> exact ⟨by decide, rfl, ⟨_, rfl⟩, _, rfl, rfl⟩

theorem witness_FaultsArePreciseAndFinal :
    ∃ s t : State, s.status = .running ∧ step s = .next t ∧ t.status.isFault = true :=
  ⟨reg 7 0x00 (code [0x45, 0x00]), _, rfl, rfl, rfl⟩

/-- Each of the four faults, at the edge of its condition. -/
theorem witness_FaultsHaveTheStatedConditions :
    (∃ s t : State, s.status = .running ∧ step s = .next t ∧ t.status = .invalidOpcode) ∧
    (∃ s t : State, s.status = .running ∧ step s = .next t ∧ t.status = .invalidRegister) ∧
    (∃ s t : State, s.status = .running ∧ step s = .next t ∧ t.status = .stackOverflow) ∧
    (∃ s t : State, s.status = .running ∧ step s = .next t ∧ t.status = .stackUnderflow) :=
  ⟨⟨State.reset, _, rfl, rfl, rfl⟩, ⟨code [0x56, 0x08], _, rfl, rfl, rfl⟩,
    ⟨reg 7 0x00 (code [0x50, 0x07]), _, rfl, rfl, rfl⟩, ⟨code [0x46, 0x00], _, rfl, rfl, rfl⟩⟩

/-- No entry in the table; a bad operandB; a bad operandA before a stack bound; a stack bound. -/
theorem witness_TheFirstFailedCheckIsReported :
    (∃ s t : State, s.status = .running ∧ step s = .next t ∧ dispatch s.cfg (s.mem.read s.pc) = none) ∧
    (∃ s t : State, s.status = .running ∧ step s = .next t ∧ s.decodesTo (.cmp 0 8)) ∧
    (∃ s t : State, s.status = .running ∧ step s = .next t ∧ s.decodesTo (.call 9) ∧ s.sp = s.cfg.stackFloor) ∧
    (∃ s t : State, s.status = .running ∧ step s = .next t ∧ s.decodesTo (.pop 7) ∧ s.sp = s.cfg.spInit) :=
  ⟨⟨code [0xC7, 0x08, 0x08], _, rfl, rfl, by decide⟩, ⟨code [0xA7, 0x00, 0x08], _, rfl, rfl, _, rfl⟩,
    ⟨reg 7 0x00 (code [0x50, 0x09]), _, rfl, rfl, ⟨_, rfl⟩, by decide⟩,
    ⟨code [0x46, 0x07], _, rfl, rfl, ⟨_, rfl⟩, by decide⟩⟩

theorem witness_OnlyCmpWritesFlags :
    (∃ (i : Instr) (s t : State), exec i s = .next t ∧ t.fl ≠ s.fl) ∧
    (∃ s t : State, step s = .next t ∧ t.fl ≠ s.fl) ∧
    (∃ (s t : State) (a b : RegIdx), exec (.cmp (regByte a) (regByte b)) s = .next t) :=
  ⟨⟨.cmp 0 7, State.reset, _, rfl, by decide⟩, ⟨code [0xA7, 0x00, 0x07], _, rfl, by decide⟩,
    ⟨State.reset, _, 7, 7, rfl⟩⟩

theorem witness_OnlyHltAndFaultsWriteStatus :
    (∃ s : State, s.status ≠ .running) ∧ (∃ s t : State, step s = .next t ∧ t.status ≠ s.status) ∧
    (∃ (i : Instr) (s t : State), exec i s = .next t) :=
  ⟨⟨State.reset.setStatus .halted, by decide⟩, ⟨code [0x01], _, rfl, by decide⟩, ⟨.hlt, State.reset, _, rfl⟩⟩

theorem witness_OnlyPrnProducesOutput :
    (∃ (s t : State) (r : RegIdx), step s = .next t ∧ s.status = .running ∧ s.decodesTo (.prn (regByte r))) ∧
    (∃ s t : State, step s = .next t ∧ ∀ r : RegIdx, s.status = .running → ¬ s.decodesTo (.prn (regByte r))) :=
  ⟨⟨code [0x47, 0x07], _, 7, rfl, rfl, _, rfl⟩,
    ⟨State.reset, _, rfl, fun _ _ ⟨_, h⟩ => nomatch (show Except.error _ = _ from h)⟩⟩

theorem witness_OnlyTheNewStackByteIsWritten :
    ∃ (s t : State) (x : Addr), step s = .next t ∧ t.mem.read x ≠ s.mem.read x :=
  ⟨reg 7 0x01 (reg 0 0x77 (code [0x45, 0x00])), _, 0x00, rfl, by decide⟩

theorem witness_UnnamedRegistersAreUntouched :
    (∃ (i : Instr) (s t : State) (k : RegIdx), regByte k ∉ i.registers ∧
      (i.mnemonic = .push ∨ i.mnemonic = .pop ∨ i.mnemonic = .call → k ≠ 7) ∧ exec i s = .next t) ∧
    (∃ (i : Instr) (s t : State), regByte 7 ∉ i.registers ∧
      (i.mnemonic = .push ∨ i.mnemonic = .pop ∨ i.mnemonic = .call → (7 : RegIdx) ≠ 7) ∧ exec i s = .next t) :=
  ⟨⟨.push 0, State.reset, _, 6, by decide, by decide, rfl⟩, ⟨.add 0 1, State.reset, _, by decide, by decide, rfl⟩⟩

/-- A CMP that runs over flags already set; a CMP that faults among the other forms. -/
theorem witness_OnlyEqualIsEverRead :
    (∃ (i : Instr) (s t : State), (i.mnemonic = .jeq ∨ i.mnemonic = .jne) ∧ exec i s = .next t) ∧
    (∃ (s t : State) (a b : RegIdx), s.fl.e = true ∧ exec (.cmp (regByte a) (regByte b)) s = .next t) ∧
    (∃ (i : Instr) (s t : State), i.mnemonic ≠ .jeq ∧ i.mnemonic ≠ .jne ∧
      (∀ a b : RegIdx, i ≠ .cmp (regByte a) (regByte b)) ∧ exec i s = .next t ∧ i.mnemonic = .cmp) :=
  ⟨⟨.jne 3, State.reset, _, by decide, rfl⟩, ⟨flags true false false State.reset, _, 0, 7, rfl, rfl⟩,
    ⟨.cmp 0 8, State.reset, _, by decide, by decide, by decide, rfl, rfl⟩⟩

/-- A tick of a running machine, one in a terminal state, and a handler. -/
theorem witness_OnlyTheFetchWritesIr :
    (∃ s t : State, step s = .next t ∧ s.status = .running) ∧ (∃ s t : State, step s = .next t ∧ s.status ≠ .running) ∧
    (∃ (i : Instr) (s t : State), exec i s = .next t) :=
  ⟨⟨code [0x01], _, rfl, rfl⟩, ⟨State.reset.setStatus .halted, _, rfl, by decide⟩, ⟨.jmp 7, State.reset, _, rfl⟩⟩

/-- Two canonical memories, made by different writes. -/
theorem witness_CanonicalMemoriesAreExtensional :
    ∃ m n : Memory, m.wf ∧ n.wf ∧ (∀ a : Addr, m.read a = n.read a) ∧ m ≠ [] :=
  ⟨Memory.write [] 0xFF 1, Memory.write (Memory.write (Memory.write [] 0x00 2) 0xFF 1) 0x00 0, by decide, by decide,
    fun _ => rfl, by decide⟩

/-- Canonical memory with its first and last byte listed (ReadsReturnTheLastWrite, PokeStoresOneByte). -/
theorem witness_memory_wf : ∃ m : Memory, m.wf ∧ m.length = 2 := ⟨[(0, 0x01), (255, 0xFF)], by decide, rfl⟩

theorem witness_TickAccessesAreInOrder :
    (∃ s t : State, step s = .next t) ∧
    (∃ s : State, s.status = .running ∧ dispatch s.cfg (s.mem.read s.pc) = none) ∧
    (∃ (s t : State) (i : Instr), s.status = .running ∧ s.decodesTo i ∧ step s = .next t ∧ t.status.isFault = true) ∧
    (∃ (s t : State) (i : Instr), s.status = .running ∧ s.decodesTo i ∧ step s = .next t ∧ t.status.isFault = false) :=
  ⟨⟨State.reset, _, rfl⟩, ⟨State.reset, rfl, by decide⟩, ⟨code [0x46, 0x00], _, .pop 0, rfl, ⟨_, rfl⟩, rfl, rfl⟩,
    ⟨reg 7 0x01 (code [0x45, 0x07]), _, .push 7, rfl, ⟨_, rfl⟩, rfl, rfl⟩⟩

/-- A PUSH over its own operand byte, and a CALL. -/
theorem witness_StackWritesAreSeenByLaterFetches :
    (∃ (s t : State) (v : Byte), s.mem.wf ∧ s.status = .running ∧ step s = .next t ∧ t.status.isFault = false ∧
      ∃ r : RegIdx, s.decodesTo (.push (regByte r)) ∧ v = s.reg r) ∧
    (∃ (s t : State) (v : Byte), s.mem.wf ∧ s.status = .running ∧ step s = .next t ∧ t.status.isFault = false ∧
      ∃ r : RegIdx, s.decodesTo (.call (regByte r)) ∧ v = s.pc + 2) :=
  ⟨⟨reg 7 0x02 (code [0x45, 0x03]), _, _, by decide, rfl, rfl, rfl, 3, ⟨_, rfl⟩, rfl⟩,
    ⟨here 0xFE [0x50, 0x07] State.reset, _, _, by decide, rfl, rfl, rfl, 7, ⟨_, rfl⟩, rfl⟩⟩

/-- SP one above the floor, and at the top (PopAfterPushRestores, PopThenJmpReturnsFromCall, the clauses of
TheStackIsLastInFirstOut about PUSH and CALL). -/
theorem witness_stack_in_bounds :
    (∃ s : State, s.mem.wf ∧ s.cfg.stackFloor.toNat < s.sp.toNat ∧ s.sp.toNat ≤ s.cfg.spInit.toNat ∧ s.sp = 0x01) ∧
    (∃ s t : State, s.mem.wf ∧ s.cfg.stackFloor.toNat < s.sp.toNat ∧ s.sp.toNat ≤ s.cfg.spInit.toNat ∧
      s.sp = s.cfg.spInit ∧ exec (.push (regByte 7)) s = .next t) ∧
    (∃ s t : State, s.mem.wf ∧ s.cfg.stackFloor.toNat < s.sp.toNat ∧ s.sp.toNat ≤ s.cfg.spInit.toNat ∧
      s.sp = s.cfg.spInit ∧ exec (.call (regByte 7)) s = .next t) :=
  ⟨⟨reg 7 0x01 State.reset, by decide, by decide, by decide, by decide⟩,
    ⟨State.reset, _, by decide, by decide, by decide, by decide, rfl⟩,
    ⟨State.reset, _, by decide, by decide, by decide, by decide, rfl⟩⟩

/-- A stack of one byte, and the POP of it. -/
theorem witness_TheStackIsLastInFirstOut :
    ∃ (s t : State) (r : RegIdx), r ≠ 7 ∧ s.sp.toNat < s.cfg.spInit.toNat ∧ exec (.pop (regByte r)) s = .next t :=
  ⟨reg 7 0xF3 State.reset, _, 6, by decide, by decide, rfl⟩

/-- SP at either end of its range, where the operation runs and where it faults. -/
theorem witness_StackOperationsKeepTheBounds :
    ∀ x ∈ [(Instr.push 7, reg 7 0x01 State.reset), (.push 0, reg 7 0x00 State.reset), (.call 0, State.reset),
        (.pop 6, reg 7 0xF3 State.reset), (.pop 0, State.reset)],
      ((∃ r, x.1 = .push r) ∨ (∃ r, x.1 = .call r) ∨ ∃ r : Byte, x.1 = .pop r ∧ r ≠ 7) ∧
        x.2.cfg.stackFloor.toNat ≤ x.2.sp.toNat ∧ x.2.sp.toNat ≤ x.2.cfg.spInit.toNat ∧ ∃ t, exec x.1 x.2 = .next t := by
  simp only [List.forall_mem_cons]
  exact ⟨⟨.inl ⟨_, rfl⟩, by decide, by decide, _, rfl⟩, ⟨.inl ⟨_, rfl⟩, by decide, by decide, _, rfl⟩,
    ⟨.inr (.inl ⟨_, rfl⟩), by decide, by decide, _, rfl⟩,
    ⟨.inr (.inr ⟨_, rfl, by decide⟩), by decide, by decide, _, rfl⟩,
    ⟨.inr (.inr ⟨_, rfl, by decide⟩), by decide, by decide, _, rfl⟩, by simp⟩

/-- Each form, into R7 and with a bad index. -/
theorem witness_RegisterWriteFrame :
    (∃ (s t : State) (v : Byte), exec (.ldi 7 v) s = .next t) ∧ (∃ (s t : State) (b : Byte), exec (.add 7 b) s = .next t) ∧
    (∃ (s t : State) (b : Byte), exec (.mul 8 b) s = .next t) ∧ (∃ (s t : State) (b : Byte), exec (.and 7 b) s = .next t) :=
  ⟨⟨State.reset, _, 0x10, rfl⟩, ⟨State.reset, _, 7, rfl⟩, ⟨State.reset, _, 0, rfl⟩, ⟨andCode [], _, 0, rfl⟩⟩

theorem witness_NoRegisterWriteFrame :
    ∀ i ∈ [Instr.hlt, .prn 7, .cmp 0 7, .jmp 8, .jeq 0, .jne 0],
      i.mnemonic ∈ [.hlt, .prn, .cmp, .jmp, .jeq, .jne] ∧ ∃ t, exec i State.reset = .next t := by
  simp only [List.forall_mem_cons]
  refine ⟨?_, ?_, ?_, ?_, ?_, ?_, by simp⟩ <;> exact ⟨by decide, _, rfl⟩

/-- A PUSH that stores at address 0x00, one that overflows, and a CALL. -/
theorem witness_StackStoreFrame :
    (∃ t, exec (.push 0) (reg 7 0x01 State.reset) = .next t ∧ t.status = .running) ∧
    (∃ t, exec (.push 0) (reg 7 0x00 State.reset) = .next t ∧ t.status = .stackOverflow) ∧
    (∃ t, exec (.call 7) State.reset = .next t ∧ t.status = .running) :=
  ⟨⟨_, rfl, rfl⟩, ⟨_, rfl, rfl⟩, ⟨_, rfl, rfl⟩⟩

theorem witness_StackLoadFrame :
    (∃ t, exec (.pop 7) (reg 7 0xF3 State.reset) = .next t ∧ t.status = .running) ∧
    (∃ t, exec (.pop 0) State.reset = .next t ∧ t.status = .stackUnderflow) :=
  ⟨⟨_, rfl, rfl⟩, ⟨_, rfl, rfl⟩⟩

theorem witness_AssemblyReadsBack : ∃ i : Instr, i.registersInRange ∧ i = .ldi 7 255 := ⟨_, by decide, rfl⟩

theorem witness_FetchWordIsRunNext :
    ∃ (s : State) (nbits w : Nat) (i : Instr) (rest : List Byte), s.mem.wf ∧
      decode (enableAnd s.cfg (wordBytes nbits w).1)
        [(wordBytes nbits w).1, (wordBytes nbits w).2.1, (wordBytes nbits w).2.2] = .ok (i, rest) :=
  ⟨State.reset, 24, 0x0201A8, .and 1 2, [], by decide, rfl⟩

/-- A JMP, a JEQ and a JNE to their own address 0x00 (R6 is 0 at reset). -/
theorem witness_JumpToSelfHangs :
    (∃ s : State, s.status = .running ∧ s.reg 6 = s.pc ∧ s.decodesTo (.jmp (regByte 6))) ∧
    (∃ s : State, s.status = .running ∧ s.reg 6 = s.pc ∧ s.decodesTo (.jeq (regByte 6)) ∧ s.fl.e = true) ∧
    (∃ s : State, s.status = .running ∧ s.reg 6 = s.pc ∧ s.decodesTo (.jne (regByte 6)) ∧ s.fl.e = false) :=
  ⟨⟨code [0x54, 0x06], rfl, by decide, _, rfl⟩,
    ⟨flags true false false (code [0x55, 0x06]), rfl, by decide, ⟨_, rfl⟩, rfl⟩,
    ⟨code [0x56, 0x06], rfl, by decide, ⟨_, rfl⟩, rfl⟩⟩

/-- A run that ends at its first tick. -/
theorem witness_ARunEndsOnceOrHangs : ∃ (s : State) (n : Nat) (t : State), EndsAt s n t := by
  refine ⟨code [0x01], 1, _, rfl, show Status.halted ≠ .running by decide, fun k u hk hu => ?_⟩
  obtain rfl : k = 0 := by omega
  cases hu
  exact fun h => h rfl

end Sys2Proof.Tests
end

/-! # What an instruction does not read, and who writes FL and `ir` (spec 10_state.md R19, R21 to R23)

The noninterference statements compare a handler's run from `s` with its run from `φ s`, where `φ` overwrites a field
that the shared operations do not read. One theorem, `Unread.exec_lockstep`, walks through the thirteen arms for every
such `φ`; where `φ` writes the value that the field has already, it says that a handler leaves the field as it was. -/

namespace Sys2Proof.Machine

/-! ## Two runs side by side -/

/-- Where `o` answers a next state, `o'` answers one too, and `Q` relates the two. -/
def Lockstep (Q : State → State → Prop) (o o' : Host.Outcome State Fault Refusal) : Prop :=
  ∀ t, o = .next t → ∃ t', o' = .next t' ∧ Q t t'

theorem Lockstep.next {Q : State → State → Prop} {t t' : State} (h : Q t t') : Lockstep Q (.next t) (.next t') := by
  rintro _ ⟨⟩
  exact ⟨t', rfl, h⟩

/-- `φ` leaves alone all that the shared operations read and commutes with what they write, and `Q` is what holds of the
two states after a fault and after the PC update. `setFlags` and `fl` are not among them: `Unread.exec_lockstep` asks
for those of CMP, JEQ and JNE only. -/
structure Unread (φ : State → State) (Q : State → State → Prop) : Prop where
  reg : ∀ s i, (φ s).reg i = s.reg i
  pc : ∀ s, (φ s).pc = s.pc
  mem : ∀ s, (φ s).mem = s.mem
  cfg : ∀ s, (φ s).cfg = s.cfg
  setReg : ∀ s i v, (φ s).setReg i v = φ (s.setReg i v)
  emit : ∀ s v, (φ s).emit v = φ (s.emit v)
  store : ∀ s a v, (φ s).store a v = φ (s.store a v)
  setStatus : ∀ s st, (φ s).setStatus st = φ (s.setStatus st)
  afterFault : ∀ s e, Q (takeFault e s) (takeFault e (φ s))
  afterPc : ∀ s cf, Q { s with pc := s.nextPc cf } { φ s with pc := (φ s).nextPc cf }

namespace Unread

variable {φ : State → State} {Q : State → State → Prop}

theorem sp (h : Unread φ Q) (s : State) : (φ s).sp = s.sp := h.reg s spIndex

theorem raise_lockstep (h : Unread φ Q) (s : State) (e : FaultCause) : Lockstep Q (raise e s) (raise e (φ s)) :=
  .next (h.afterFault s e)

theorem finish_lockstep (h : Unread φ Q) (cf : ControlFlow) {u u' : State} (hu : u' = φ u) :
    Lockstep Q (finish cf u) (finish cf u') :=
  hu ▸ .next (h.afterPc u cf)

theorem withReg_lockstep (h : Unread φ Q) (n : Byte) (s : State) {k k' : RegIdx → Host.Outcome State Fault Refusal}
    (hk : ∀ i, n = regByte i → Lockstep Q (k i) (k' i)) : Lockstep Q (withReg n s k) (withReg n (φ s) k') := by
  rcases withReg_cases n s k with ⟨i, rfl, -⟩ | ⟨hn, -⟩
  · simpa only [withReg_regByte] using hk i rfl
  · simpa only [withReg_bad hn] using h.raise_lockstep s _

theorem withRegs_lockstep (h : Unread φ Q) (a b : Byte) (s : State)
    {k k' : RegIdx → RegIdx → Host.Outcome State Fault Refusal}
    (hk : ∀ i j, a = regByte i → b = regByte j → Lockstep Q (k i j) (k' i j)) :
    Lockstep Q (withRegs a b s k) (withRegs a b (φ s) k') :=
  h.withReg_lockstep a s fun i ha => h.withReg_lockstep b s fun j hb => hk i j ha hb

theorem pushSlot_lockstep (h : Unread φ Q) (s : State) {k k' : Addr → State → Host.Outcome State Fault Refusal}
    (hk : ∀ a u, Lockstep Q (k a u) (k' a (φ u))) : Lockstep Q (pushSlot s k) (pushSlot (φ s) k') := by
  unfold pushSlot State.setSp
  rw [h.sp, h.cfg, h.setReg]
  split
  · exact h.raise_lockstep s _
  · exact hk _ _

theorem popSlot_lockstep (h : Unread φ Q) (s : State) {k k' : Byte → State → Host.Outcome State Fault Refusal}
    (hk : ∀ v u, Lockstep Q (k v u) (k' v (φ u))) : Lockstep Q (popSlot s k) (popSlot (φ s) k') := by
  unfold popSlot State.setSp
  rw [h.sp, h.cfg, h.mem, h.setReg]
  split
  · exact h.raise_lockstep s _
  · exact hk _ _

/-- No instruction reads what `φ` overwrites. Of FL only this is asked: a CMP that runs writes it alike in both states,
and a conditional jump finds the same E. -/
theorem exec_lockstep (h : Unread φ Q) (i : Instr) (s : State)
    (hcmp : ∀ a b, i = .cmp (regByte a) (regByte b) → ∀ f, (φ s).setFlags f = φ (s.setFlags f))
    (hjump : i.mnemonic = .jeq ∨ i.mnemonic = .jne → (φ s).fl.e = s.fl.e) :
    Lockstep Q (exec i s) (exec i (φ s)) := by
  cases i with
  | hlt => exact h.finish_lockstep _ (h.setStatus s _)
  | ldi r imm => exact h.withReg_lockstep r s fun i _ => h.finish_lockstep _ (h.setReg s i imm)
  | prn r =>
    simp only [exec, execPrn, h.reg]
    exact h.withReg_lockstep r s fun i _ => h.finish_lockstep _ (h.emit s _)
  | add a b =>
    simp only [exec, execAdd, aluApply, h.reg, h.setReg]
    exact h.withRegs_lockstep a b s fun _ _ _ _ => h.finish_lockstep _ rfl
  | mul a b =>
    simp only [exec, execMul, aluApply, h.reg, h.setReg]
    exact h.withRegs_lockstep a b s fun _ _ _ _ => h.finish_lockstep _ rfl
  | cmp a b =>
    simp only [exec, execCmp, aluApply, h.reg]
    exact h.withRegs_lockstep a b s fun i j ha hb => h.finish_lockstep _ (hcmp i j (by rw [ha, hb]) _)
  | and a b =>
    simp only [exec, execAnd, aluApply, h.reg, h.setReg, h.cfg]
    split
    · exact h.withRegs_lockstep a b s fun _ _ _ _ => h.finish_lockstep _ rfl
    · exact h.raise_lockstep s (.invalidOpcode s.ir s.pc)
  | push r =>
    simp only [exec, execPush, h.reg]
    exact h.withReg_lockstep r s fun i _ => h.pushSlot_lockstep s fun a u => h.finish_lockstep _ (h.store u a _)
  | pop r =>
    simp only [exec, execPop]
    exact h.withReg_lockstep r s fun i _ => h.popSlot_lockstep s fun v u => h.finish_lockstep _ (h.setReg u i v)
  | call r =>
    simp only [exec, execCall, State.returnAddr, h.reg, h.pc]
    exact h.withReg_lockstep r s fun i _ => h.pushSlot_lockstep s fun a u => h.finish_lockstep _ (h.store u a _)
  | jmp r =>
    simp only [exec, execJmp, h.reg]
    exact h.withReg_lockstep r s fun _ _ => h.finish_lockstep _ rfl
  | jeq r =>
    simp only [exec, execJeq, h.reg, hjump (.inl rfl)]
    exact h.withReg_lockstep r s fun _ _ => h.finish_lockstep _ rfl
  | jne r =>
    simp only [exec, execJne, h.reg, hjump (.inr rfl)]
    exact h.withReg_lockstep r s fun _ _ => h.finish_lockstep _ rfl

end Unread

/-! ## FL -/

/-- No shared operation reads FL, and only `setFlags` writes it. -/
theorem unread_setFlags (f : Flags) : Unread (·.setFlags f) (fun t t' => t' = t.setFlags f) where
  reg _ _ := rfl
  pc _ := rfl
  mem _ := rfl
  cfg _ := rfl
  setReg _ _ _ := rfl
  emit _ _ := rfl
  store _ _ _ := rfl
  setStatus _ _ := rfl
  afterFault _ _ := rfl
  afterPc _ cf := by cases cf <;> rfl

/-- Every form but a CMP that runs carries an overwritten FL through, if a conditional jump finds the same E. -/
theorem exec_setFlags {i : Instr} {s t : State} {f : Flags} (hcmp : ∀ a b, i ≠ .cmp (regByte a) (regByte b))
    (hjump : i.mnemonic = .jeq ∨ i.mnemonic = .jne → f.e = s.fl.e) (h : exec i s = .next t) :
    exec i (s.setFlags f) = .next (t.setFlags f) := by
  obtain ⟨_, ht', rfl⟩ := (unread_setFlags f).exec_lockstep i s (fun a b hi => absurd hi (hcmp a b)) hjump t h
  exact ht'

/-- Every form but a CMP that runs leaves FL as it found it (R21). -/
theorem exec_fl {i : Instr} {s t : State} (hcmp : ∀ a b, i ≠ .cmp (regByte a) (regByte b)) (h : exec i s = .next t) :
    t.fl = s.fl := by
  have hself : exec i s = .next (t.setFlags s.fl) := exec_setFlags hcmp (fun _ => rfl) h
  have ht : t = t.setFlags s.fl := Host.Outcome.next.inj (h.symm.trans hself)
  rw [ht, State.setFlags_fl]

theorem exec_cmp_regByte (a b : RegIdx) (s : State) :
    exec (.cmp (regByte a) (regByte b)) s = finish .continue (s.setFlags (compareFlags (s.reg a) (s.reg b))) := by
  simp only [exec, execCmp, withRegs_regByte, aluApply]

theorem compareFlags_exclusive (u v : Byte) : (compareFlags u v).exclusive := by
  simp only [Flags.exclusive, compareFlags, beq_iff_eq, decide_eq_true_eq]
  omega

theorem compareFlags_set (u v : Byte) :
    (compareFlags u v).e = true ∨ (compareFlags u v).g = true ∨ (compareFlags u v).l = true := by
  simp only [compareFlags, beq_iff_eq, decide_eq_true_eq]
  omega

/-- What the fetch-decode unit makes of the bytes at `pc` is what they decode to. -/
theorem fetched_ok_iff (s : State) (i : Instr) : s.fetched = .ok i ↔ s.decodesTo i := by
  unfold State.fetched State.decodesTo State.fetchBytes
  cases decode s.cfg [s.mem.read s.pc, s.mem.read (s.pc + 1), s.mem.read (s.pc + 2)] with
  | error e => simp [Except.map]
  | ok p => simp [Except.map, Prod.ext_iff]

/-- Settles O40: an overwritten FL is carried through by every form that does not read it (`exec_setFlags`), and a CMP
that runs writes it again. -/
theorem onlyEqualIsEverRead : Obligations.OnlyEqualIsEverRead := by
  refine ⟨fun i s t g l hi h => ?_, fun s t a b f h => ?_, fun i s t f hjeq hjne hcmp h => ?_⟩
  · refine exec_setFlags (fun a b hab => ?_) (fun _ => rfl) h
    simp [hab, Instr.mnemonic] at hi
  · rw [exec_cmp_regByte] at h ⊢
    exact h
  · exact exec_setFlags hcmp (fun hi => absurd hi (not_or.mpr ⟨hjeq, hjne⟩)) h

/-- Settles O35: a handler that changes FL is a CMP that ran (`exec_fl`), and the rest of a tick does not write FL. -/
theorem onlyCmpWritesFlags : Obligations.OnlyCmpWritesFlags := by
  have hexec : ∀ (i : Instr) (s t : State), exec i s = .next t → t.fl ≠ s.fl →
      ∃ a b : RegIdx, i = .cmp (regByte a) (regByte b) := by
    intro i s t h hfl
    by_contra hcmp
    push Not at hcmp
    exact hfl (exec_fl hcmp h)
  refine ⟨hexec, fun s t h hfl => ?_, fun s t a b h => ?_⟩
  · rcases step_cases s with ⟨-, hs⟩ | ⟨e, -, -, hs⟩ | ⟨i, hrun, hi, hs⟩
    · cases hs.symm.trans h
      exact absurd rfl hfl
    · cases hs.symm.trans h
      exact absurd rfl hfl
    · obtain ⟨a, b, rfl⟩ := hexec i s.fetchOpcode t (hs.symm.trans h) hfl
      exact ⟨hrun, a, b, (fetched_ok_iff s _).mp hi⟩
  · cases (exec_cmp_regByte a b s).symm.trans h
    exact ⟨compareFlags_exclusive _ _, compareFlags_set _ _⟩

/-! ## The instruction register -/

/-- No shared operation writes `ir`, and only the PC update reads it (R66). -/
theorem unread_ir (op : Byte) :
    Unread (fun s => { s with ir := op }) (fun t t' => t' = { t with ir := op, pc := t'.pc }) where
  reg _ _ := rfl
  pc _ := rfl
  mem _ := rfl
  cfg _ := rfl
  setReg _ _ _ := rfl
  emit _ _ := rfl
  store _ _ _ := rfl
  setStatus _ _ := rfl
  afterFault _ _ := rfl
  afterPc _ _ := rfl

/-- An overwritten `ir` reaches nothing but pc (R19, R66). -/
theorem exec_set_ir {i : Instr} {s t : State} (op : Byte) (h : exec i s = .next t) :
    ∃ t', exec i { s with ir := op } = .next t' ∧ t' = { t with ir := op, pc := t'.pc } :=
  (unread_ir op).exec_lockstep i s (fun _ _ _ _ => rfl) (fun _ => rfl) t h

/-- No handler writes `ir` (R19). -/
theorem exec_ir {i : Instr} {s t : State} (h : exec i s = .next t) : t.ir = s.ir := by
  obtain ⟨t', ht', heq⟩ := exec_set_ir s.ir h
  cases h.symm.trans ht'
  rw [heq]

/-- Settles O41: the fetch puts the byte in `ir`, and neither a handler nor a fault touches it after that. -/
theorem onlyTheFetchWritesIr : Obligations.OnlyTheFetchWritesIr := by
  refine ⟨fun s t h => ?_, fun i s t => exec_ir, fun i s t op h => ?_⟩
  · rcases step_cases s with ⟨hrun, hs⟩ | ⟨e, hrun, -, hs⟩ | ⟨i, hrun, -, hs⟩
    · cases hs.symm.trans h
      rw [if_neg hrun]
    · cases hs.symm.trans h
      rw [if_pos hrun]
      rfl
    · rw [if_pos hrun]
      exact exec_ir (hs.symm.trans h)
  · obtain ⟨t', ht', heq⟩ := exec_set_ir op h
    refine ⟨t', ht', ?_⟩
    rw [heq]

end Sys2Proof.Machine

/-! # The operand-count field of the opcode byte (spec 30_encoding.md R46 to R48) -/

namespace Sys2Proof.Machine

theorem operandCount_le_two (m : Mnemonic) : m.operandCount ≤ 2 := by
  cases m <;> decide

theorem instrLen_eq_ushiftRight (op : Byte) : instrLen op = (op >>> 6).toNat + 1 := by
  rw [Laws.EncodedLength.instrLen_eq, BitVec.toNat_ushiftRight, Nat.shiftRight_eq_div_pow]

/-- Under a map whose counts match, the byte that selects a mnemonic carries that mnemonic's length (R47). -/
theorem instrLen_of_dispatch {c : Config} (hc : c.countsMatch) {op : Byte} {m : Mnemonic}
    (h : dispatch c op = some m) : instrLen op = m.operandCount + 1 := by
  obtain ⟨hm, rfl⟩ := dispatch_some h
  exact (Laws.EncodedLength.of_count hc hm rfl).symm

/-- Settles O11: no format has more than two operands (`operandCount_le_two`), so the field value 3, which would be the
length 4, selects no mnemonic. -/
theorem lengthIsCountFieldPlusOne : Obligations.LengthIsCountFieldPlusOne := by
  refine ⟨instrLen_eq_ushiftRight, fun _ _ _ hc h => instrLen_of_dispatch hc h, fun c op hc h3 => ?_⟩
  cases h : dispatch c op with
  | none => rfl
  | some m =>
    have hlen : (op >>> 6).toNat + 1 = m.operandCount + 1 :=
      (instrLen_eq_ushiftRight op).symm.trans (instrLen_of_dispatch hc h)
    have hle := operandCount_le_two m
    omega

end Sys2Proof.Machine

/-! # The dispatch table (spec 40_cycle.md R62, R63)

What a tick keeps is proved through the writes it is made of: `Kept P` says that each of them keeps `P`, and
`Kept.step_keeps`, which walks through the thirteen arms once, that every tick then does. -/

namespace Sys2Proof.Machine

/-! ## The table is an exact match -/

/-- AND is the one mnemonic whose dispatch depends on a parameter (R62). -/
theorem dispatched_iff (c : Config) (m : Mnemonic) : c.dispatched m = true ↔ (m = .and → c.andDispatched = true) := by
  simp [Config.dispatched, imp_iff_not_or]

/-- A byte is absent from the table exactly when it is no dispatched mnemonic's opcode (R62). -/
theorem dispatch_none_iff (c : Config) (op : Byte) :
    dispatch c op = none ↔ ∀ m, c.dispatched m = true → c.opcodes.get m ≠ op := by
  simp [dispatch, List.find?_eq_none, Laws.EncodedLength.mnemonic_mem_all]

/-- With distinct opcodes the table answers every dispatched mnemonic at its own opcode (R6, R62). -/
theorem dispatch_get {c : Config} (hc : c.opcodesDistinct) {m : Mnemonic} (hm : c.dispatched m = true) :
    dispatch c (c.opcodes.get m) = some m := by
  cases h : dispatch c (c.opcodes.get m) with
  | none => exact absurd rfl ((dispatch_none_iff c _).mp h m hm)
  | some n =>
    obtain ⟨hn, hget⟩ := dispatch_some h
    have hall := Laws.EncodedLength.mnemonic_mem_all
    exact congrArg some (hc n (hall n) m (hall m) hn hm hget)

theorem dispatch_eq_some_iff {c : Config} (hc : c.opcodesDistinct) (op : Byte) (m : Mnemonic) :
    dispatch c op = some m ↔ c.dispatched m = true ∧ c.opcodes.get m = op := by
  refine ⟨dispatch_some, ?_⟩
  rintro ⟨hm, rfl⟩
  exact dispatch_get hc hm

/-! ## The handler a tick runs -/

@[simp] theorem instrOf_mnemonic (m : Mnemonic) (opA opB : Byte) : (instrOf m opA opB).mnemonic = m := by
  cases m <;> rfl

/-- A tick runs the handler of what the fetch-decode unit made of the bytes at `pc` (R58, R65). -/
theorem step_of_fetched {s : State} {i : Instr} (hrun : s.status = .running) (hi : s.fetched = .ok i) :
    step s = exec i s.fetchOpcode := by
  simp only [step, if_pos hrun, hi]

theorem fetched_of_dispatch {s : State} {m : Mnemonic} (h : dispatch s.cfg (s.mem.read s.pc) = some m) :
    s.fetched = .ok (instrOf m (s.mem.read (s.pc + 1)) (s.mem.read (s.pc + 2))) := by
  rw [fetched_eq, h]

/-! ## What every tick keeps -/

/-- Where `o` answers a next state, `P` holds of it. -/
def Ensures (P : State → Prop) (o : Host.Outcome State Fault Refusal) : Prop := ∀ t, o = .next t → P t

theorem Ensures.next {P : State → Prop} {t : State} (h : P t) : Ensures P (.next t) := by
  rintro _ ⟨⟩
  exact h

/-- Each write that a tick is made of keeps `P`. Of FL only a CMP's values are asked for: nothing else writes it. -/
structure Kept (P : State → Prop) : Prop where
  setReg : ∀ s i v, P s → P (s.setReg i v)
  setFlags : ∀ s u v, P s → P (s.setFlags (compareFlags u v))
  emit : ∀ s v, P s → P (s.emit v)
  store : ∀ s a v, P s → P (s.store a v)
  setStatus : ∀ s st, P s → P (s.setStatus st)
  setPc : ∀ s a, P s → P { s with pc := a }
  fetchOpcode : ∀ s, P s → P s.fetchOpcode

namespace Kept

variable {P : State → Prop} {s : State}

theorem raise_keeps (h : Kept P) (e : FaultCause) (hs : P s) : Ensures P (raise e s) :=
  .next (h.setStatus s _ hs)

theorem finish_keeps (h : Kept P) (cf : ControlFlow) (hs : P s) : Ensures P (finish cf s) :=
  .next (h.setPc s _ hs)

theorem withReg_keeps (h : Kept P) (n : Byte) (hs : P s) {k : RegIdx → Host.Outcome State Fault Refusal}
    (hk : ∀ i, Ensures P (k i)) : Ensures P (withReg n s k) := by
  rcases withReg_cases n s k with ⟨i, -, heq⟩ | ⟨-, heq⟩ <;> rw [heq]
  · exact hk i
  · exact h.raise_keeps _ hs

theorem withRegs_keeps (h : Kept P) (a b : Byte) (hs : P s) {k : RegIdx → RegIdx → Host.Outcome State Fault Refusal}
    (hk : ∀ i j, Ensures P (k i j)) : Ensures P (withRegs a b s k) :=
  h.withReg_keeps a hs fun i => h.withReg_keeps b hs (hk i)

theorem pushSlot_keeps (h : Kept P) (hs : P s) {k : Addr → State → Host.Outcome State Fault Refusal}
    (hk : ∀ a u, P u → Ensures P (k a u)) : Ensures P (pushSlot s k) := by
  rcases pushSlot_cases s k with ⟨-, heq⟩ | ⟨-, heq⟩ <;> rw [heq]
  · exact hk _ _ (h.setReg s _ _ hs)
  · exact h.raise_keeps _ hs

theorem popSlot_keeps (h : Kept P) (hs : P s) {k : Byte → State → Host.Outcome State Fault Refusal}
    (hk : ∀ v u, P u → Ensures P (k v u)) : Ensures P (popSlot s k) := by
  rcases popSlot_cases s k with ⟨-, heq⟩ | ⟨-, heq⟩ <;> rw [heq]
  · exact hk _ _ (h.setReg s _ _ hs)
  · exact h.raise_keeps _ hs

theorem aluApply_keeps (h : Kept P) (op : AluOp) (i j : RegIdx) (hs : P s) : P (aluApply op i j s) := by
  cases op with
  | add | mul | and => exact h.setReg s _ _ hs
  | cmp => exact h.setFlags s _ _ hs
  | unknown => exact hs

theorem exec_keeps (h : Kept P) (i : Instr) (hs : P s) : Ensures P (exec i s) := by
  cases i with
  | hlt => exact h.finish_keeps _ (h.setStatus s _ hs)
  | ldi r imm => exact h.withReg_keeps r hs fun i => h.finish_keeps _ (h.setReg s i imm hs)
  | prn r => exact h.withReg_keeps r hs fun i => h.finish_keeps _ (h.emit s _ hs)
  | add a b | mul a b | cmp a b =>
    exact h.withRegs_keeps a b hs fun i j => h.finish_keeps _ (h.aluApply_keeps _ i j hs)
  | and a b =>
    simp only [exec, execAnd]
    split
    · exact h.withRegs_keeps a b hs fun i j => h.finish_keeps _ (h.aluApply_keeps _ i j hs)
    · exact h.raise_keeps _ hs
  | push r | call r =>
    simp only [exec, execPush, execCall]
    exact h.withReg_keeps r hs fun _ => h.pushSlot_keeps hs fun a u hu => h.finish_keeps _ (h.store u a _ hu)
  | pop r => exact h.withReg_keeps r hs fun i => h.popSlot_keeps hs fun v u hu => h.finish_keeps _ (h.setReg u i v hu)
  | jmp r | jeq r | jne r =>
    simp only [exec, execJmp, execJeq, execJne]
    exact h.withReg_keeps r hs fun _ => h.finish_keeps _ hs

theorem step_keeps (h : Kept P) (hs : P s) : Ensures P (step s) := by
  rcases step_cases s with ⟨-, heq⟩ | ⟨e, -, -, heq⟩ | ⟨i, -, -, heq⟩ <;> rw [heq]
  · exact .next hs
  · exact h.raise_keeps _ (h.fetchOpcode s hs)
  · exact h.exec_keeps i (h.fetchOpcode s hs)

end Kept

/-- No write of a tick touches the parameters (R63). -/
theorem kept_cfg (c : Config) : Kept (·.cfg = c) where
  setReg _ _ _ h := h
  setFlags _ _ _ h := h
  emit _ _ h := h
  store _ _ _ h := h
  setStatus _ _ h := h
  setPc _ _ h := h
  fetchOpcode _ h := h

theorem step_cfg {s t : State} (h : step s = .next t) : t.cfg = s.cfg := (kept_cfg s.cfg).step_keeps rfl t h

/-- Settles O9: the table's first match is its only one (`dispatch_eq_some_iff`), the instruction the tick makes has the
mnemonic that was looked up (`instrOf_mnemonic`), and the table is made of parameters, which no tick changes. -/
theorem dispatchIsAnExactMatch : Obligations.DispatchIsAnExactMatch := by
  refine ⟨fun c op m hc => ?_, fun s m hrun hm => ?_, fun s t op h => by rw [step_cfg h]⟩
  · rw [dispatch_eq_some_iff hc, dispatched_iff]
  · have hi := fetched_of_dispatch hm
    exact ⟨_, instrOf_mnemonic m _ _, (fetched_ok_iff s _).mp hi, step_of_fetched hrun hi⟩

end Sys2Proof.Machine

/-! # What a handler answers (spec 40_cycle.md R65 to R68, 60_exceptions.md R97, R103)

Two relations say once what the thirteen meanings do: `Completes s i t`, where every check passes, and
`FailsCheck s i e`, where a check fails. One of the two holds of every instruction and state (`completes_or_fails`), and
each of them gives the value of `exec`. The proofs below take the relations apart and do not unfold a meaning again. -/

namespace Sys2Proof

/-- The first register index of an instruction that is out of range, operandA first (R50, R103). -/
abbrev Instr.badRegister? (i : Instr) : Option Byte := i.registers.find? (fun n => decide (7 < n.toNat))

end Sys2Proof

namespace Sys2Proof.Machine

/-! ## The PC write -/

/-- `pc <- a`, the last write of a tick (R58 lines 6 and 7). -/
def State.setPc (s : State) (a : Addr) : State := { s with pc := a }

@[simp] theorem State.setPc_regs (s : State) (a : Addr) : (s.setPc a).regs = s.regs := rfl
@[simp] theorem State.setPc_pc (s : State) (a : Addr) : (s.setPc a).pc = a := rfl
@[simp] theorem State.setPc_ir (s : State) (a : Addr) : (s.setPc a).ir = s.ir := rfl
@[simp] theorem State.setPc_fl (s : State) (a : Addr) : (s.setPc a).fl = s.fl := rfl
@[simp] theorem State.setPc_status (s : State) (a : Addr) : (s.setPc a).status = s.status := rfl
@[simp] theorem State.setPc_out (s : State) (a : Addr) : (s.setPc a).out = s.out := rfl
@[simp] theorem State.setPc_mem (s : State) (a : Addr) : (s.setPc a).mem = s.mem := rfl
@[simp] theorem State.setPc_cfg (s : State) (a : Addr) : (s.setPc a).cfg = s.cfg := rfl
@[simp] theorem State.setPc_reg (s : State) (a : Addr) (k : RegIdx) : (s.setPc a).reg k = s.reg k := rfl

/-! ## SP under the updates that leave it alone -/

@[simp] theorem State.setPc_sp (s : State) (a : Addr) : (s.setPc a).sp = s.sp := rfl
@[simp] theorem State.store_sp (s : State) (a : Addr) (v : Byte) : (s.store a v).sp = s.sp := rfl
@[simp] theorem State.fetchOpcode_sp (s : State) : s.fetchOpcode.sp = s.sp := rfl
@[simp] theorem takeFault_sp (e : FaultCause) (s : State) : (takeFault e s).sp = s.sp := rfl
@[simp] theorem takeFault_reg (e : FaultCause) (s : State) (k : RegIdx) : (takeFault e s).reg k = s.reg k := rfl

theorem State.setReg_sp_ne (s : State) {k : RegIdx} (v : Byte) (h : k ≠ 7) : (s.setReg k v).sp = s.sp :=
  s.setReg_reg_ne k 7 v h.symm

/-- The default advance, as the statements write it (R66). -/
theorem State.advancedPc_eq (s : State) : s.advancedPc = s.pc + (s.ir >>> 6) + 1 := by
  rw [State.advancedPc, instrLen_eq_ushiftRight, BitVec.ofNat_add, BitVec.ofNat_toNat, BitVec.setWidth_eq,
    BitVec.add_assoc]
  rfl

/-! ## The two answers of a handler -/

/-- What a handler leaves when every check passes. -/
inductive Completes (s : State) : Instr → State → Prop
  | hlt : Completes s .hlt ((s.setStatus .halted).setPc s.advancedPc)
  | ldi (k : RegIdx) (imm : Byte) : Completes s (.ldi (regByte k) imm) ((s.setReg k imm).setPc s.advancedPc)
  | prn (k : RegIdx) : Completes s (.prn (regByte k)) ((s.emit (s.reg k)).setPc s.advancedPc)
  | add (i j : RegIdx) :
      Completes s (.add (regByte i) (regByte j)) ((s.setReg i (s.reg i + s.reg j)).setPc s.advancedPc)
  | mul (i j : RegIdx) :
      Completes s (.mul (regByte i) (regByte j)) ((s.setReg i (s.reg i * s.reg j)).setPc s.advancedPc)
  | cmp (i j : RegIdx) :
      Completes s (.cmp (regByte i) (regByte j))
        ((s.setFlags (compareFlags (s.reg i) (s.reg j))).setPc s.advancedPc)
  | and (i j : RegIdx) (h : s.cfg.andDispatched = true) :
      Completes s (.and (regByte i) (regByte j)) ((s.setReg i (s.reg i &&& s.reg j)).setPc s.advancedPc)
  | push (k : RegIdx) (h : s.cfg.stackFloor.toNat < s.sp.toNat) :
      Completes s (.push (regByte k)) (((s.setSp (s.sp - 1)).store (s.sp - 1) (s.reg k)).setPc s.advancedPc)
  | pop (k : RegIdx) (h : s.sp.toNat < s.cfg.spInit.toNat) :
      Completes s (.pop (regByte k)) (((s.setSp (s.sp + 1)).setReg k (s.mem.read s.sp)).setPc s.advancedPc)
  | call (k : RegIdx) (h : s.cfg.stackFloor.toNat < s.sp.toNat) :
      Completes s (.call (regByte k)) (((s.setSp (s.sp - 1)).store (s.sp - 1) (s.pc + 2)).setPc (s.reg k))
  | jmp (k : RegIdx) : Completes s (.jmp (regByte k)) (s.setPc (s.reg k))
  | jeq (k : RegIdx) : Completes s (.jeq (regByte k)) (s.setPc (if s.fl.e then s.reg k else s.advancedPc))
  | jne (k : RegIdx) : Completes s (.jne (regByte k)) (s.setPc (if s.fl.e then s.advancedPc else s.reg k))

/-- The first check of a handler that fails, with its info (R97, R103). The first constructor is log entry 15. -/
inductive FailsCheck (s : State) : Instr → FaultCause → Prop
  | notDispatched (a b : Byte) (h : s.cfg.andDispatched = false) :
      FailsCheck s (.and a b) (.invalidOpcode s.ir s.pc)
  | badRegister {i : Instr} {n : Byte} (hd : s.cfg.dispatched i.mnemonic = true) (h : i.badRegister? = some n) :
      FailsCheck s i (.invalidRegister n)
  | pushFull (k : RegIdx) (h : s.sp.toNat ≤ s.cfg.stackFloor.toNat) :
      FailsCheck s (.push (regByte k)) (.stackOverflow s.sp)
  | callFull (k : RegIdx) (h : s.sp.toNat ≤ s.cfg.stackFloor.toNat) :
      FailsCheck s (.call (regByte k)) (.stackOverflow s.sp)
  | popEmpty (k : RegIdx) (h : s.cfg.spInit.toNat ≤ s.sp.toNat) :
      FailsCheck s (.pop (regByte k)) (.stackUnderflow s.sp)

/-! ### Each answer is the handler's -/

/-- Where the checks pass, the handler answers the state of `Completes`. -/
theorem Completes.exec_eq {s t : State} {i : Instr} (h : Completes s i t) : exec i s = .next t := by
  cases h with
  | hlt => rfl
  | ldi | prn | jmp => simp only [exec, execLdi, execPrn, execJmp, withReg_regByte]; rfl
  | add | mul | cmp => simp only [exec, execAdd, execMul, execCmp, withRegs_regByte]; rfl
  | and i j h => simp only [exec, execAnd, if_pos h, withRegs_regByte]; rfl
  | push k h | call k h =>
    simp only [exec, execPush, execCall, withReg_regByte, pushSlot, if_neg (Nat.not_le.mpr h)]; rfl
  | pop k h => simp only [exec, execPop, withReg_regByte, popSlot, if_neg (Nat.not_le.mpr h)]; rfl
  | jeq | jne => simp only [exec, execJeq, execJne, withReg_regByte]; split <;> rfl

theorem withReg_of_badRegister {r n : Byte} (h : [r].find? (fun n => decide (7 < n.toNat)) = some n) (s : State)
    (k : RegIdx → Host.Outcome State Fault Refusal) : withReg r s k = raise (.invalidRegister n) s := by
  obtain ⟨hr, rfl⟩ : 7 < r.toNat ∧ r = n := by simpa using h
  exact withReg_bad hr s k

theorem withRegs_of_badRegister {a b n : Byte} (h : [a, b].find? (fun n => decide (7 < n.toNat)) = some n) (s : State)
    (k : RegIdx → RegIdx → Host.Outcome State Fault Refusal) :
    withRegs a b s k = raise (.invalidRegister n) s := by
  rcases withRegs_cases a b s k with ⟨i, j, rfl, rfl, -⟩ | ⟨ha, heq⟩ | ⟨ha, hb, heq⟩
  · simp [Nat.not_lt.mpr (regByte_le _)] at h
  · obtain rfl : a = n := by simpa [ha] using h
    exact heq
  · obtain rfl : b = n := by simpa [Nat.not_lt.mpr ha, hb] using h
    exact heq

/-- Where a check fails, the handler raises that fault. -/
theorem FailsCheck.exec_eq {s : State} {i : Instr} {e : FaultCause} (h : FailsCheck s i e) : exec i s = raise e s := by
  cases h with
  | notDispatched a b h => simp [exec, execAnd, h]
  | badRegister hd h =>
    cases i with
    | hlt => cases h
    | ldi | prn | push | pop | call | jmp | jeq | jne =>
      simp only [exec, execLdi, execPrn, execPush, execPop, execCall, execJmp, execJeq, execJne]
      exact withReg_of_badRegister h s _
    | add | mul | cmp =>
      simp only [exec, execAdd, execMul, execCmp]
      exact withRegs_of_badRegister h s _
    | and a b =>
      simp only [exec, execAnd, if_pos ((dispatched_iff _ _).mp hd rfl)]
      exact withRegs_of_badRegister h s _
  | pushFull k h | callFull k h => simp only [exec, execPush, execCall, withReg_regByte, pushSlot, if_pos h]
  | popEmpty k h => simp only [exec, execPop, withReg_regByte, popSlot, if_pos h]

theorem badRegister?_eq_none {i : Instr} : i.badRegister? = none ↔ i.registersInRange := by
  simp [Instr.badRegister?]

/-- Every handler completes or fails a check. -/
theorem completes_or_fails (i : Instr) (s : State) : (∃ t, Completes s i t) ∨ ∃ e, FailsCheck s i e := by
  by_cases hd : s.cfg.dispatched i.mnemonic = true
  · cases hbad : i.badRegister? with
    | some n => exact .inr ⟨_, .badRegister hd hbad⟩
    | none =>
      have hreg : i.registersInRange := badRegister?_eq_none.mp hbad
      cases i with
      | hlt => exact .inl ⟨_, .hlt⟩
      | ldi r | prn r | jmp r | jeq r | jne r =>
        obtain ⟨k, rfl⟩ := exists_regByte (hreg r (.head _))
        exact .inl ⟨_, by constructor⟩
      | add a b | mul a b | cmp a b =>
        obtain ⟨j, rfl⟩ := exists_regByte (hreg a (.head _))
        obtain ⟨k, rfl⟩ := exists_regByte (hreg b (.tail _ (.head _)))
        exact .inl ⟨_, by constructor⟩
      | and a b =>
        obtain ⟨j, rfl⟩ := exists_regByte (hreg a (.head _))
        obtain ⟨k, rfl⟩ := exists_regByte (hreg b (.tail _ (.head _)))
        exact .inl ⟨_, .and j k ((dispatched_iff _ _).mp hd rfl)⟩
      | push r =>
        obtain ⟨k, rfl⟩ := exists_regByte (hreg r (.head _))
        exact (Nat.lt_or_ge _ _).imp (fun h => ⟨_, .push k h⟩) (fun h => ⟨_, .pushFull k h⟩)
      | call r =>
        obtain ⟨k, rfl⟩ := exists_regByte (hreg r (.head _))
        exact (Nat.lt_or_ge _ _).imp (fun h => ⟨_, .call k h⟩) (fun h => ⟨_, .callFull k h⟩)
      | pop r =>
        obtain ⟨k, rfl⟩ := exists_regByte (hreg r (.head _))
        exact (Nat.lt_or_ge _ _).imp (fun h => ⟨_, .pop k h⟩) (fun h => ⟨_, .popEmpty k h⟩)
  · cases i with
    | and a b => exact .inr ⟨_, .notDispatched a b (by simpa [Config.dispatched, Instr.mnemonic] using hd)⟩
    | _ => exact absurd rfl hd

end Sys2Proof.Machine

/-! # Handlers and ticks always answer (spec 40_cycle.md R58, R59) -/

namespace Sys2Proof.Machine

/-- What a handler answers: the completed state, or the fault entry of R104. -/
theorem exec_inv {i : Instr} {s t : State} (h : exec i s = .next t) :
    Completes s i t ∨ ∃ e, FailsCheck s i e ∧ t = takeFault e s := by
  rcases completes_or_fails i s with ⟨t', hc⟩ | ⟨e, hf⟩
  · cases hc.exec_eq.symm.trans h
    exact .inl hc
  · cases hf.exec_eq.symm.trans h
    exact .inr ⟨e, hf, rfl⟩

/-- Settles O4: a handler completes or raises, and both are next states. -/
theorem execAlwaysAnswersNext : Obligations.ExecAlwaysAnswersNext := by
  intro i s
  rcases completes_or_fails i s with ⟨t, hc⟩ | ⟨e, hf⟩
  · exact ⟨t, hc.exec_eq⟩
  · exact ⟨takeFault e s, hf.exec_eq⟩

theorem step_answers (s : State) : ∃ t, step s = .next t := by
  rcases step_cases s with ⟨-, hs⟩ | ⟨e, -, -, hs⟩ | ⟨i, -, -, hs⟩
  · exact ⟨s, hs⟩
  · exact ⟨_, hs⟩
  · rw [hs]
    exact execAlwaysAnswersNext i s.fetchOpcode

/-! ## The tick as a function, and runs as its iterates -/

/-- The state after one tick (`step_eq_tick`). -/
def State.tick (s : State) : State :=
  match step s with
  | .next t => t
  | .fault _ => s
  | .refused _ => s

theorem step_eq_tick (s : State) : step s = .next s.tick := by
  obtain ⟨t, ht⟩ := step_answers s
  simp only [State.tick, ht]

theorem State.tick_eq {s t : State} (h : step s = .next t) : s.tick = t :=
  Host.Outcome.next.inj ((step_eq_tick s).symm.trans h)

theorem core_run_eq (n : Nat) (s : State) : core.run n s = .next (State.tick^[n] s) := by
  induction n generalizing s with
  | zero => rfl
  | succ n ih =>
    have hstep : core.step s = .next s.tick := step_eq_tick s
    simp only [Host.Core.run, hstep]
    exact ih s.tick

theorem afterTicks_eq (s : State) (n : Nat) : s.afterTicks n = some (State.tick^[n] s) := by
  rw [State.afterTicks, core_run_eq]

/-! ## The invariant -/

/-- No write of a tick breaks `State.Inv`: a store keeps the form of memory, and CMP writes exclusive flags. -/
theorem kept_inv : Kept State.Inv where
  setReg _ _ _ h := ⟨h.memory, h.params, h.flags⟩
  setFlags _ u v h := ⟨h.memory, h.params, compareFlags_exclusive u v⟩
  emit _ _ h := ⟨h.memory, h.params, h.flags⟩
  store _ a v h := ⟨Memory.write_wf h.memory a v, h.params, h.flags⟩
  setStatus _ _ h := ⟨h.memory, h.params, h.flags⟩
  setPc _ _ h := ⟨h.memory, h.params, h.flags⟩
  fetchOpcode _ h := ⟨h.memory, h.params, h.flags⟩

/-- Settles O3: every write of a tick keeps the invariant (`kept_inv`). -/
theorem stepKeepsTheInvariant : Obligations.StepKeepsTheInvariant :=
  fun _ t hs h => kept_inv.step_keeps hs t h

/-- Settles O5: a run is the iterated tick, and each tick keeps the invariant and the parameters. -/
theorem runsGoOnAndKeepTheInvariant : Obligations.RunsGoOnAndKeepTheInvariant := by
  intro n s
  refine ⟨State.tick^[n] s, afterTicks_eq s n, fun hs => ?_, ?_⟩
  · exact Function.Iterate.rec State.Inv hs (fun u hu => stepKeepsTheInvariant u u.tick hu (step_eq_tick u)) n
  · exact Function.Iterate.rec (fun t : State => t.cfg = s.cfg) rfl
      (fun u hu => (step_cfg (step_eq_tick u)).trans hu) n

/-- Settles O2: reset leaves memory and parameters and clears FL. -/
theorem resetMeetsTheInvariant : Obligations.ResetMeetsTheInvariant :=
  have hreset : ∀ s : State, s.mem.wf → s.cfg.WellFormed → (resetInput s).Inv :=
    fun _ hmem hcfg => ⟨hmem, hcfg, by simp [Flags.exclusive, resetInput, State.atReset]⟩
  ⟨hreset, hreset State.reset reset_mem_wf ⟨by decide, by decide, by decide⟩⟩

/-! ## Terminal states and the end of a run -/

theorem tick_of_terminal {s : State} (h : s.status ≠ .running) : s.tick = s :=
  State.tick_eq (by simp only [step, if_neg h])

theorem iterate_tick_of_terminal {s : State} (h : s.status ≠ .running) (n : Nat) : State.tick^[n] s = s :=
  Function.iterate_fixed (tick_of_terminal h) n

/-- Settles O8: no tick leaves a terminal state (`tick_of_terminal`). -/
theorem terminalStatesAreFinal : Obligations.TerminalStatesAreFinal := by
  refine fun s h => ⟨?_, ?_, fun n => ?_⟩
  · rw [step_eq_tick, tick_of_terminal h]
  · simp only [tickAccesses, if_neg h]
  · rw [afterTicks_eq, iterate_tick_of_terminal h]

theorem hangs_iff (s : State) : Hangs s ↔ ∀ n, (State.tick^[n] s).status = .running := by
  simp [Hangs, afterTicks_eq]

theorem endsAt_iff (s : State) (n : Nat) (t : State) :
    EndsAt s n t ↔ State.tick^[n] s = t ∧ t.status ≠ .running ∧ ∀ k < n, (State.tick^[k] s).status = .running := by
  simp [EndsAt, State.ended, afterTicks_eq]

/-- A run that does not hang ends, at the first tick that leaves RUNNING. -/
theorem hangs_or_ends (s : State) : Hangs s ∨ ∃ n t, EndsAt s n t := by
  by_cases h : ∃ n, (State.tick^[n] s).status ≠ .running
  · exact .inr ⟨Nat.find h, _, (endsAt_iff _ _ _).mpr
      ⟨rfl, Nat.find_spec h, fun k hk => not_not.mp (Nat.find_min h hk)⟩⟩
  · exact .inl ((hangs_iff s).mpr (not_exists_not.mp h))

theorem normalEnd_or_faultEnd {t : State} (h : t.status ≠ .running) : t.normalEnd ∨ t.faultEnd := by
  unfold State.normalEnd State.faultEnd
  cases hst : t.status with
  | running => exact absurd hst h
  | halted => exact .inl rfl
  | invalidOpcode | invalidRegister | stackOverflow | stackUnderflow => exact .inr rfl

theorem not_normalEnd_and_faultEnd (t : State) : ¬ (t.normalEnd ∧ t.faultEnd) := by
  rintro ⟨hn, hf⟩
  rw [State.normalEnd] at hn
  rw [State.faultEnd, hn] at hf
  exact absurd hf (by decide)

theorem EndsAt.le {s t t' : State} {n n' : Nat} (h : EndsAt s n t) (h' : EndsAt s n' t') : n ≤ n' := by
  obtain ⟨-, -, hbefore⟩ := (endsAt_iff s n t).mp h
  obtain ⟨rfl, hend, -⟩ := (endsAt_iff s n' t').mp h'
  exact Nat.not_lt.mp fun hlt => hend (hbefore n' hlt)

/-- Settles O60: the end of a run is the first tick that leaves RUNNING, and the state there is final. -/
theorem aRunEndsOnceOrHangs : Obligations.ARunEndsOnceOrHangs := by
  refine ⟨hangs_or_ends, fun s n t h => ?_⟩
  obtain ⟨rfl, hend, -⟩ := (endsAt_iff s n t).mp h
  refine ⟨fun hh => hend ((hangs_iff s).mp hh n), fun m hm => ?_, normalEnd_or_faultEnd hend,
    not_normalEnd_and_faultEnd _, fun n' t' h' => ?_⟩
  · obtain ⟨k, rfl⟩ := Nat.exists_eq_add_of_le' hm
    rw [afterTicks_eq, Function.iterate_add_apply, iterate_tick_of_terminal hend]
  · obtain rfl : n' = n := Nat.le_antisymm (h'.le h) (h.le h')
    exact ⟨rfl, ((endsAt_iff s n' t').mp h').1.symm⟩

/-! ## Reset -/

theorem atReset_reg (c : Config) (m : Memory) (i : RegIdx) :
    (State.atReset c m).reg i = if i = 7 then c.spInit else 0 := by
  fin_cases i <;> rfl

/-- Settles O1: each value is the field of `State.atReset`; the first tick fetches at its pc, 0x00. -/
theorem resetLeavesTheStatedValues : Obligations.ResetLeavesTheStatedValues := by
  refine ⟨fun s => ⟨fun i hi => ?_, rfl, rfl, rfl, rfl, rfl, rfl, rfl, rfl, fun _ => rfl, rfl⟩, rfl, rfl,
    fun s t h => ⟨rfl, ?_⟩⟩
  · exact (atReset_reg _ _ i).trans (if_neg hi)
  · exact onlyTheFetchWritesIr.1 (resetInput s) t h

end Sys2Proof.Machine

/-! # Decoding and encoding (spec 30_encoding.md R45 to R54) -/

namespace Sys2Proof.Machine

/-! ## The bytes of an instruction -/

theorem instrOf_operandBytes (m : Mnemonic) (opA opB : Byte) :
    (instrOf m opA opB).operandBytes = [opA, opB].take m.operandCount := by
  cases m <;> rfl

/-- What decodes is an opcode byte of the dispatch table, the operand bytes of the instruction, and the rest. -/
theorem decode_eq_ok_iff {c : Config} {bs : List Byte} {i : Instr} {rest : List Byte} :
    decode c bs = .ok (i, rest) ↔
      ∃ op, dispatch c op = some i.mnemonic ∧ bs = op :: (i.operandBytes ++ rest) := by
  constructor
  · intro h
    cases bs with
    | nil => cases h
    | cons op bs =>
      cases hm : dispatch c op with
      | none =>
        simp only [decode, hm] at h
        cases h
      | some m =>
        have hof : ∀ (opA opB : Byte) (k : Nat) (rest : List Byte), m.operandCount = k →
            ∃ op', dispatch c op' = some (instrOf m opA opB).mnemonic ∧
              op :: ([opA, opB].take k ++ rest) = op' :: ((instrOf m opA opB).operandBytes ++ rest) := by
          rintro opA opB _ rest rfl
          exact ⟨op, by rw [hm, instrOf_mnemonic], by rw [instrOf_operandBytes]⟩
        simp only [decode, hm] at h
        split at h <;> cases h
        · next hk => exact hof 0 0 0 _ hk
        · next opA hk => exact hof opA 0 1 _ hk
        · next opA opB hk => exact hof opA opB 2 _ hk
  · rintro ⟨op, hm, rfl⟩
    cases i <;> simp only [decode, hm] <;> rfl

/-- Settles O13: the opcode byte selects the mnemonic (`dispatch_get`), and the mnemonic its own operand bytes. -/
theorem decodeOfEncodeIsTheInstruction : Obligations.DecodeOfEncodeIsTheInstruction :=
  fun _ _ _ hc hi => decode_eq_ok_iff.mpr ⟨_, dispatch_get hc hi, rfl⟩

/-- Settles O14: the opcode byte that selects a mnemonic is the one the map gives it (`dispatch_some`). -/
theorem encodeOfDecodeIsTheBytes : Obligations.EncodeOfDecodeIsTheBytes := by
  intro c bs i rest h
  obtain ⟨op, hop, rfl⟩ := decode_eq_ok_iff.mp h
  obtain ⟨hd, rfl⟩ := dispatch_some hop
  exact ⟨rfl, hd⟩

/-- Settles O15: a format that carries fewer operand bytes leaves the others in the rest. -/
theorem unusedOperandBytesAreIgnored : Obligations.UnusedOperandBytesAreIgnored := by
  intro c op m hm
  have hdecode : ∀ (opA opB : Byte) (rest : List Byte),
      decode c (op :: ([opA, opB].take m.operandCount ++ rest)) = .ok (instrOf m opA opB, rest) := fun opA opB rest =>
    decode_eq_ok_iff.mpr ⟨op, by rw [instrOf_mnemonic, hm], by rw [instrOf_operandBytes]⟩
  refine ⟨fun hf => ⟨instrOf m 0 0, fun x y => ?_⟩, fun hf x => ⟨instrOf m x 0, fun y => ?_⟩⟩
  · simpa [Mnemonic.operandCount, hf, InstrFormat.operandCount] using hdecode 0 0 [x, y]
  · simpa [Mnemonic.operandCount, hf, InstrFormat.operandCount] using hdecode x 0 [y]

/-! ## The default map -/

/-- Settles O12: each word evaluated. -/
theorem knownWordsDecode : Obligations.KnownWordsDecode :=
  ⟨rfl, rfl, rfl, rfl, rfl, rfl, rfl, rfl, rfl, rfl, rfl, rfl, rfl⟩

/-- Settles O16: each of the thirteen rows evaluated. -/
theorem defaultOpcodeMapIsTheTable : Obligations.DefaultOpcodeMapIsTheTable := by
  unfold Obligations.DefaultOpcodeMapIsTheTable
  decide

/-! ## What a tick decodes -/

theorem decodesTo_iff (s : State) (i : Instr) :
    s.decodesTo i ↔ ∃ m, dispatch s.cfg (s.mem.read s.pc) = some m ∧
      i = instrOf m (s.mem.read (s.pc + 1)) (s.mem.read (s.pc + 2)) := by
  rw [← fetched_ok_iff, fetched_eq]
  cases dispatch s.cfg (s.mem.read s.pc) with
  | none => simp
  | some m => simp [eq_comm]

theorem dispatch_of_decodesTo {s : State} {i : Instr} (h : s.decodesTo i) :
    dispatch s.cfg (s.mem.read s.pc) = some i.mnemonic := by
  obtain ⟨m, hm, rfl⟩ := (decodesTo_iff s i).mp h
  rw [hm, instrOf_mnemonic]

theorem dispatched_of_decodesTo {s : State} {i : Instr} (h : s.decodesTo i) : s.cfg.dispatched i.mnemonic = true :=
  (dispatch_some (dispatch_of_decodesTo h)).1

theorem dispatch_none_or_decodesTo (s : State) :
    dispatch s.cfg (s.mem.read s.pc) = none ∨ ∃ i, s.decodesTo i := by
  cases h : dispatch s.cfg (s.mem.read s.pc) with
  | none => exact .inl rfl
  | some m => exact .inr ⟨_, (decodesTo_iff s _).mpr ⟨m, h, rfl⟩⟩

theorem step_of_decodesTo {s : State} {i : Instr} (hrun : s.status = .running) (hi : s.decodesTo i) :
    step s = exec i s.fetchOpcode :=
  step_of_fetched hrun ((fetched_ok_iff s i).mpr hi)

theorem fetched_of_dispatch_none {s : State} (h : dispatch s.cfg (s.mem.read s.pc) = none) :
    s.fetched = .error (.invalidOpcode (s.mem.read s.pc)) := by
  rw [fetched_eq, h]

theorem step_of_dispatch_none {s : State} (hrun : s.status = .running)
    (h : dispatch s.cfg (s.mem.read s.pc) = none) :
    step s = .next (takeFault (.invalidOpcode (s.mem.read s.pc) s.pc) s.fetchOpcode) := by
  simp only [step, if_pos hrun, fetched_of_dispatch_none h]
  rfl

/-- All that a tick of a running machine leaves: the fault entry of an opcode byte with no table entry, or what the
handler of the decoded instruction answers. -/
theorem step_inv {s t : State} (hrun : s.status = .running) (h : step s = .next t) :
    (dispatch s.cfg (s.mem.read s.pc) = none ∧
      t = takeFault (.invalidOpcode (s.mem.read s.pc) s.pc) s.fetchOpcode) ∨
    ∃ i, s.decodesTo i ∧
      (Completes s.fetchOpcode i t ∨ ∃ e, FailsCheck s.fetchOpcode i e ∧ t = takeFault e s.fetchOpcode) := by
  rcases dispatch_none_or_decodesTo s with hd | ⟨i, hi⟩
  · exact .inl ⟨hd, Host.Outcome.next.inj (h.symm.trans (step_of_dispatch_none hrun hd))⟩
  · exact .inr ⟨i, hi, exec_inv ((step_of_decodesTo hrun hi).symm.trans h)⟩

/-- Settles O6: the tick hands the decoded instruction to its handler after the fetch. -/
theorem stepRunsTheDecodedInstruction : Obligations.StepRunsTheDecodedInstruction :=
  fun _ _ => step_of_decodesTo

/-- Settles O7: without a table entry the decode fails, so the tick makes the one access and takes the fault. -/
theorem invalidOpcodeHaltsAtItsAddress : Obligations.InvalidOpcodeHaltsAtItsAddress := by
  refine ⟨fun s hrun hd => ⟨step_of_dispatch_none hrun hd, ?_, rfl⟩, by decide, by decide⟩
  simp only [tickAccesses, if_pos hrun, fetched_of_dispatch_none hd]

/-- A byte from 0xC0 has the operand-count field 3, which no allowed map gives to an opcode (R47). -/
theorem dispatch_none_of_le {c : Config} (hc : c.countsMatch) {op : Byte} (h : 0xC0 ≤ op.toNat) :
    dispatch c op = none := by
  refine lengthIsCountFieldPlusOne.2.2 c op hc ?_
  have := op.isLt
  rw [BitVec.toNat_ushiftRight, Nat.shiftRight_eq_div_pow]
  omega

/-- Settles O10: the counts are evaluated, and the bytes from 0xC0 carry the field value 3. -/
theorem unlistedBytesAreIllegal : Obligations.UnlistedBytesAreIllegal := by
  refine ⟨by decide +kernel, by decide +kernel, by decide, fun op h => ?_, fun s hrun hd => ?_⟩
  · exact ⟨dispatch_none_of_le (by decide) h, dispatch_none_of_le (by decide) h⟩
  · exact ⟨_, step_of_dispatch_none hrun hd, rfl⟩

/-! ## A placed word -/

theorem byte_add_ne_self (p : Addr) : p + 1 ≠ p ∧ p + 2 ≠ p ∧ p + 2 ≠ p + 1 := by
  refine ⟨?_, ?_, ?_⟩ <;> bv_omega

/-- The three bytes at `pc` after the placement are those of the word. -/
theorem withFetchWord_reads {s : State} (h : s.mem.wf) (nbits w : Nat) :
    (s.withFetchWord nbits w).mem.read s.pc = (wordBytes nbits w).1 ∧
    (s.withFetchWord nbits w).mem.read (s.pc + 1) = (wordBytes nbits w).2.1 ∧
    (s.withFetchWord nbits w).mem.read (s.pc + 2) = (wordBytes nbits w).2.2 := by
  obtain ⟨h10, h20, h21⟩ := byte_add_ne_self s.pc
  have hwf := Memory.write_wf h s.pc (wordBytes nbits w).1
  exact ⟨(Memory.read_write_ne h20.symm).trans ((Memory.read_write_ne h10.symm).trans (Memory.read_write_self h)),
    (Memory.read_write_ne h21.symm).trans (Memory.read_write_self hwf),
    Memory.read_write_self (Memory.write_wf hwf _ _)⟩

/-- Settles O58: the placed bytes are what the next tick fetches (`withFetchWord_reads`). -/
theorem fetchWordIsRunNext : Obligations.FetchWordIsRunNext := by
  intro s nbits w i rest hmem hdec
  obtain ⟨h0, h1, h2⟩ := withFetchWord_reads hmem nbits w
  have hi : (s.withFetchWord nbits w).decodesTo i := by
    refine ⟨rest, ?_⟩
    rw [show (s.withFetchWord nbits w).pc = s.pc from rfl, h0, h1, h2]
    exact hdec
  rw [step_of_decodesTo rfl hi, ← h0]
  rfl

/-! ## A jump to itself -/

/-- The next tick of a running machine is a jump taken to its own address, which changes nothing but `ir`. -/
def State.JumpsToSelf (s : State) : Prop :=
  s.status = .running ∧ ∃ r, s.reg r = s.pc ∧
    (s.decodesTo (.jmp (regByte r)) ∨ (s.decodesTo (.jeq (regByte r)) ∧ s.fl.e = true) ∨
      (s.decodesTo (.jne (regByte r)) ∧ s.fl.e = false))

theorem tick_of_jumpsToSelf {s : State} (h : s.JumpsToSelf) : s.tick = s.fetchOpcode := by
  obtain ⟨hrun, r, hr, hjump⟩ := h
  have hpc : s.fetchOpcode.setPc (s.fetchOpcode.reg r) = s.fetchOpcode := by
    rw [State.fetchOpcode_reg, hr]
    rfl
  apply State.tick_eq
  rcases hjump with hi | ⟨hi, he⟩ | ⟨hi, he⟩ <;> rw [step_of_decodesTo hrun hi]
  · rw [(Completes.jmp r).exec_eq, hpc]
  · rw [(Completes.jeq r).exec_eq, State.fetchOpcode_fl, if_pos he, hpc]
  · rw [(Completes.jne r).exec_eq, State.fetchOpcode_fl, he, if_neg Bool.false_ne_true, hpc]

theorem tick_jumpsToSelf (s : State) (h : s.JumpsToSelf) : s.tick.JumpsToSelf := by
  rw [tick_of_jumpsToSelf h]
  exact h

/-- Settles O59: a jump to its own address is followed by itself, and the machine runs. -/
theorem jumpToSelfHangs : Obligations.JumpToSelfHangs := fun s r hrun hr hjump =>
  (hangs_iff s).mpr fun n => (Function.Iterate.rec State.JumpsToSelf ⟨hrun, r, hr, hjump⟩ tick_jumpsToSelf n).1

end Sys2Proof.Machine

/-! # The instructions one by one (spec 41_alu.md to 44_control.md)

Each statement is the constructor of `Completes` for its form, with the default advance as the statements write it, and
the constructors of `FailsCheck` for its checks. -/

namespace Sys2Proof.Machine

/-! ## Words -/

theorem Byte.add_eq_ofNat (u v : Byte) : u + v = BitVec.ofNat 8 ((u.toNat + v.toNat) % 256) :=
  BitVec.eq_of_toNat_eq (by simp)

theorem Byte.mul_eq_ofNat (u v : Byte) : u * v = BitVec.ofNat 8 ((u.toNat * v.toNat) % 256) :=
  BitVec.eq_of_toNat_eq (by simp)

theorem compareFlags_eq (u v : Byte) :
    compareFlags u v = { e := decide (u = v), g := decide (v.toNat < u.toNat), l := decide (u.toNat < v.toNat) } := by
  simp [compareFlags, BitVec.toNat_eq, Bool.beq_eq_decide_eq]

theorem compareFlags_self (u : Byte) : compareFlags u u = ⟨true, false, false⟩ := by
  simp [compareFlags]

theorem compareFlags_of_gt {u v : Byte} (h : v.toNat < u.toNat) : compareFlags u v = ⟨false, true, false⟩ := by
  simp [compareFlags, h, h.ne', h.le]

theorem compareFlags_of_lt {u v : Byte} (h : u.toNat < v.toNat) : compareFlags u v = ⟨false, false, true⟩ := by
  simp [compareFlags, h, h.ne, h.le]

/-- Settles O55: the sums, products and orders of bytes are those of naturals. -/
theorem aluAppliesItsOperation : Obligations.AluAppliesItsOperation := by
  refine fun i j s => ⟨?_, ?_, rfl, ?_, rfl⟩
  · rw [← Byte.add_eq_ofNat]
    rfl
  · rw [← Byte.mul_eq_ofNat]
    rfl
  · rw [← compareFlags_eq]
    rfl

/-! ## A bad index -/

/-- A dispatched instruction that names an index above 7 takes InvalidRegister (R99). -/
theorem exec_of_badIndex {i : Instr} {s : State} (hd : s.cfg.dispatched i.mnemonic = true)
    (h : ∃ n ∈ i.registers, 7 < n.toNat) : exec i s = .next { s with status := .invalidRegister } := by
  cases hbad : i.badRegister? with
  | some n => exact (FailsCheck.badRegister hd hbad).exec_eq
  | none =>
    obtain ⟨n, hn, hlt⟩ := h
    exact absurd (badRegister?_eq_none.mp hbad n hn) (Nat.not_le.mpr hlt)

theorem exists_mem_singleton {r : Byte} (h : 7 < r.toNat) : ∃ n ∈ [r], 7 < n.toNat := ⟨r, .head _, h⟩

theorem exists_mem_pair {a b : Byte} (h : 7 < a.toNat ∨ 7 < b.toNat) : ∃ n ∈ [a, b], 7 < n.toNat := by
  simpa using h

/-! ## HLT, LDI and PRN -/

/-- Settles O17: HLT's own opcode byte has the length 1, and HALTED is terminal. -/
theorem hltHalts : Obligations.HltHalts := by
  have hexec : ∀ s : State, exec .hlt s = .next { s with status := .halted, pc := s.pc + (s.ir >>> 6) + 1 } := by
    intro s
    rw [← State.advancedPc_eq]
    exact Completes.hlt.exec_eq
  refine ⟨fun _ => rfl, hexec, fun s hir => ?_, fun s t h => ?_⟩
  · have hadv : s.pc + (s.ir >>> 6) + 1 = s.pc + 1 := by
      rw [hir, show (0x01 : Byte) >>> 6 = 0#8 from rfl, BitVec.add_zero]
    rw [hexec, hadv]
  · cases (hexec s).symm.trans h
    exact (terminalStatesAreFinal _ (by simp)).1

/-- Settles O18: the checks and the write treat R7 as any other register. -/
theorem ldiLoadsTheImmediate : Obligations.LdiLoadsTheImmediate := by
  refine ⟨fun _ _ _ => rfl, fun s r imm => ?_, fun _ _ _ h => exec_of_badIndex rfl (exists_mem_singleton h)⟩
  rw [← State.advancedPc_eq]
  exact (Completes.ldi r imm).exec_eq

/-- Settles O19: a completed PRN appends one value, and a bad index none. -/
theorem prnEmitsTheRegister : Obligations.PrnEmitsTheRegister := by
  refine ⟨fun _ _ => rfl, fun s r => ?_, fun _ _ h => exec_of_badIndex rfl (exists_mem_singleton h)⟩
  rw [← State.advancedPc_eq]
  exact (Completes.prn r).exec_eq

/-! ## ADD, MUL, CMP and AND -/

/-- Settles O20: the sum of two bytes is that of naturals mod 256 (`Byte.add_eq_ofNat`). -/
theorem addWritesTheWrappedSum : Obligations.AddWritesTheWrappedSum := by
  refine ⟨fun _ _ _ => rfl, fun s a b => ?_, fun _ _ _ h => exec_of_badIndex rfl (exists_mem_pair h)⟩
  rw [← State.advancedPc_eq, ← Byte.add_eq_ofNat]
  exact (Completes.add a b).exec_eq

/-- Settles O21: the product of two bytes is that of naturals mod 256 (`Byte.mul_eq_ofNat`). -/
theorem mulWritesTheLowByteOfTheProduct : Obligations.MulWritesTheLowByteOfTheProduct := by
  refine ⟨fun _ _ _ => rfl, fun s a b => ?_, fun _ _ _ h => exec_of_badIndex rfl (exists_mem_pair h)⟩
  rw [← State.advancedPc_eq, ← Byte.mul_eq_ofNat]
  exact (Completes.mul a b).exec_eq

/-- Settles O22: the flags of a CMP decide the unsigned order (`compareFlags_eq`). -/
theorem cmpWritesAllThreeFlags : Obligations.CmpWritesAllThreeFlags := by
  refine ⟨fun _ _ _ => rfl, fun s a b => ?_, fun _ _ _ h => exec_of_badIndex rfl (exists_mem_pair h)⟩
  rw [← State.advancedPc_eq, ← compareFlags_eq]
  exact (Completes.cmp a b).exec_eq

/-- Settles O24: with AND out of the table, no other row of the default map has its byte. -/
theorem andWritesTheBitwiseAnd : Obligations.AndWritesTheBitwiseAnd := by
  refine ⟨fun _ _ _ => rfl, fun s a b hand => ?_, fun s a b hand h => ?_, fun s hmap hand hrun hop => ?_,
    fun s a b hand => (FailsCheck.notDispatched a b hand).exec_eq⟩
  · rw [← State.advancedPc_eq]
    exact (Completes.and a b hand).exec_eq
  · exact exec_of_badIndex ((dispatched_iff _ _).mpr fun _ => hand) (exists_mem_pair h)
  · have hnone : dispatch s.cfg (s.mem.read s.pc) = none := by
      rw [hop, dispatch_none_iff, hmap]
      intro m hm
      cases m with
      | and => exact absurd ((dispatched_iff _ _).mp hm rfl) (by simp [hand])
      | _ => decide
    rw [step_of_dispatch_none hrun hnone, State.fetchOpcode, hop]
    rfl

/-! ## PUSH, POP and CALL -/

/-- Settles O25: the stored value is read before SP moves, so PUSH R7 stores the old SP. -/
theorem pushStoresTheOldRegister : Obligations.PushStoresTheOldRegister := by
  refine ⟨fun _ _ => rfl, fun s r hsp => ?_, fun s r hsp => (FailsCheck.pushFull r hsp).exec_eq,
    fun _ _ h => exec_of_badIndex rfl (exists_mem_singleton h)⟩
  rw [← State.advancedPc_eq]
  exact (Completes.push r hsp).exec_eq

/-- Settles O26: the register is written after SP, so POP R7 ends with the popped byte. -/
theorem popLoadsTheTopOfStack : Obligations.PopLoadsTheTopOfStack := by
  refine ⟨fun _ _ => rfl, fun s r hsp => ?_, fun s r hsp => (FailsCheck.popEmpty r hsp).exec_eq,
    fun _ _ h => exec_of_badIndex rfl (exists_mem_singleton h)⟩
  rw [← State.advancedPc_eq]
  exact (Completes.pop r hsp).exec_eq

/-- Settles O27: the target is read before SP moves, so CALL R7 jumps to the old SP. -/
theorem callPushesTheReturnAddressAndJumps : Obligations.CallPushesTheReturnAddressAndJumps :=
  ⟨fun _ _ => rfl, fun _ r hsp => (Completes.call r hsp).exec_eq, fun _ r hsp => (FailsCheck.callFull r hsp).exec_eq,
    fun _ _ h => exec_of_badIndex rfl (exists_mem_singleton h)⟩

/-! ## JMP, JEQ and JNE -/

/-- Settles O28: JMP checks its index and writes pc alone. -/
theorem jmpGoesToTheRegister : Obligations.JmpGoesToTheRegister :=
  ⟨fun _ _ => rfl, fun _ r => (Completes.jmp r).exec_eq, fun _ _ h => exec_of_badIndex rfl (exists_mem_singleton h)⟩

/-- Settles O29: the index is checked before E is read. -/
theorem jeqJumpsWhenEqual : Obligations.JeqJumpsWhenEqual := by
  refine ⟨fun _ _ => rfl, fun s r he => ?_, fun s r he => ?_,
    fun _ _ h => exec_of_badIndex rfl (exists_mem_singleton h)⟩
  · rw [(Completes.jeq r).exec_eq, if_pos he]
    rfl
  · rw [(Completes.jeq r).exec_eq, he, if_neg Bool.false_ne_true, ← State.advancedPc_eq]
    rfl

/-- Settles O30: the index is checked before E is read. -/
theorem jneJumpsWhenNotEqual : Obligations.JneJumpsWhenNotEqual := by
  refine ⟨fun _ _ => rfl, fun s r he => ?_, fun s r he => ?_,
    fun _ _ h => exec_of_badIndex rfl (exists_mem_singleton h)⟩
  · rw [(Completes.jne r).exec_eq, he, if_neg Bool.false_ne_true]
    rfl
  · rw [(Completes.jne r).exec_eq, if_pos he, ← State.advancedPc_eq]
    rfl

/-! ## Layouts -/

theorem Flags.toByte_eq_zero_iff (f : Flags) : f.toByte = 0x00 ↔ f = ⟨false, false, false⟩ := by
  obtain ⟨e, g, l⟩ := f
  revert e g l
  decide

/-- Settles O56: the eight values of FL and the six of status, evaluated. -/
theorem flagAndStatusLayouts : Obligations.FlagAndStatusLayouts := by
  refine ⟨fun ⟨e, g, l⟩ => ?_, by decide, fun st => ?_⟩
  · revert e g l
    decide
  · cases st <;> decide

/-- Settles O23: `compareFlags` sets exactly one flag, and only a CMP writes FL. -/
theorem cmpLeavesOneFlagSet : Obligations.CmpLeavesOneFlagSet := by
  refine ⟨fun s t a b h => ?_, fun s t h hzero => ?_⟩
  · cases (exec_cmp_regByte a b s).symm.trans h
    have hset := compareFlags_set (s.reg a) (s.reg b)
    refine ⟨fun heq => ?_, fun hgt => ?_, fun hlt => ?_, fun hzero => ?_, compareFlags_exclusive _ _⟩
    · exact congrArg Flags.toByte ((congrArg (compareFlags _) heq.symm).trans (compareFlags_self _))
    · exact congrArg Flags.toByte (compareFlags_of_gt hgt)
    · exact congrArg Flags.toByte (compareFlags_of_lt hlt)
    · have hfl : compareFlags (s.reg a) (s.reg b) = ⟨false, false, false⟩ := (Flags.toByte_eq_zero_iff _).mp hzero
      simp [hfl] at hset
  · by_contra hne
    have hfl : t.fl ≠ s.fl := fun heq => hne (heq ▸ hzero)
    obtain ⟨hrun, a, b, hi⟩ := onlyCmpWritesFlags.2.1 s t h hfl
    obtain ⟨-, hset⟩ := onlyCmpWritesFlags.2.2 s.fetchOpcode t a b ((step_of_decodesTo hrun hi).symm.trans h)
    simp [(Flags.toByte_eq_zero_iff _).mp hzero] at hset

/-- Settles O44: a poke is one write of memory. -/
theorem pokeStoresOneByte : Obligations.PokeStoresOneByte :=
  fun _ a x v h => ⟨Memory.read_write h a x v, rfl⟩

end Sys2Proof.Machine

/-! # What memory holds (spec 20_memory.md R32, R38) -/

namespace Sys2Proof.Machine

/-- The first cell of a canonical memory is what its address reads as, and that is a listed byte. -/
theorem Memory.read_head {k : Nat} {v : Byte} {m : Memory} (h : Memory.wf ((k, v) :: m)) :
    (BitVec.ofNat 8 k).toNat = k ∧ Memory.read ((k, v) :: m) (BitVec.ofNat 8 k) = v ∧ v ≠ unlistedByte := by
  obtain ⟨-, hk, hv, -⟩ := Memory.wf_cons.mp h
  have haddr : (BitVec.ofNat 8 k).toNat = k := by
    rw [BitVec.toNat_ofNat]
    exact Nat.mod_eq_of_lt hk
  exact ⟨haddr, by rw [Memory.read_cons, if_pos haddr.symm], hv⟩

/-- A canonical memory that reads a listed byte at `k` begins at `k` or below. -/
theorem Memory.head_le {k : Nat} {v : Byte} {m n : Memory} (hm : Memory.wf ((k, v) :: m))
    (hread : ∀ a : Addr, Memory.read ((k, v) :: m) a = n.read a) : ∃ c ∈ n, c.1 ≤ k := by
  obtain ⟨haddr, hhead, hv⟩ := Memory.read_head hm
  by_contra hlow
  push Not at hlow
  refine hv ?_
  rw [← hhead, hread]
  exact Memory.read_of_lt fun c hc => haddr.symm ▸ hlow c hc

theorem Memory.head_le_head {k l : Nat} {v w : Byte} {m n : Memory} (hm : Memory.wf ((k, v) :: m))
    (hn : Memory.wf ((l, w) :: n)) (hread : ∀ a : Addr, Memory.read ((k, v) :: m) a = Memory.read ((l, w) :: n) a) :
    l ≤ k := by
  obtain ⟨habove, -⟩ := Memory.wf_cons.mp hn
  obtain ⟨c, hc, hle⟩ := Memory.head_le hm hread
  rcases List.mem_cons.mp hc with rfl | hc
  · exact hle
  · exact (habove c hc).le.trans hle

/-- Settles O42: two canonical memories that read the same have the same first cell, and their tails read the same. -/
theorem canonicalMemoriesAreExtensional : Obligations.CanonicalMemoriesAreExtensional := by
  intro m
  induction m with
  | nil =>
    rintro (_ | ⟨⟨l, w⟩, n⟩) - hn hread
    · rfl
    · obtain ⟨c, hc, -⟩ := Memory.head_le hn fun a => (hread a).symm
      cases hc
  | cons c m ih =>
    obtain ⟨k, v⟩ := c
    rintro (_ | ⟨⟨l, w⟩, n⟩) hm hn hread
    · obtain ⟨c, hc, -⟩ := Memory.head_le hm hread
      cases hc
    · obtain rfl : k = l := Nat.le_antisymm (Memory.head_le_head hn hm fun a => (hread a).symm)
        (Memory.head_le_head hm hn hread)
      obtain ⟨hmk, -, -, hm'⟩ := Memory.wf_cons.mp hm
      obtain ⟨hnk, -, -, hn'⟩ := Memory.wf_cons.mp hn
      obtain rfl : v = w := by
        rw [← (Memory.read_head hm).2.1, hread, (Memory.read_head hn).2.1]
      rw [ih n hm' hn' fun a => ?_]
      by_cases ha : k = a.toNat
      · rw [Memory.read_of_lt (ha ▸ hmk), Memory.read_of_lt (ha ▸ hnk)]
      · have := hread a
        rwa [Memory.read_cons, Memory.read_cons, if_neg ha, if_neg ha] at this

/-- Settles O43: by induction on the writes; a later write to the address hides the first. -/
theorem readsReturnTheLastWrite : Obligations.ReadsReturnTheLastWrite := by
  intro m ws a hm
  induction ws generalizing m with
  | nil => rfl
  | cons w ws ih =>
    rw [List.foldl_cons, ih _ (Memory.write_wf hm _ _), List.reverse_cons, List.find?_append]
    cases ws.reverse.find? (fun w => w.1 == a) with
    | some w' => rfl
    | none =>
      by_cases ha : w.1 = a
      · simp [ha, Memory.read_write_self hm]
      · simp [ha, Memory.read_write_ne (Ne.symm ha)]

/-! # What a handler leaves unchanged -/

/-! ## Facts about a completed handler -/

theorem Completes.status_eq {s t : State} {i : Instr} (h : Completes s i t) :
    t.status = s.status ∨ i = .hlt ∧ t.status = .halted := by
  cases h with
  | hlt => exact .inr ⟨rfl, rfl⟩
  | _ => exact .inl rfl

theorem Completes.out_eq {s t : State} {i : Instr} (h : Completes s i t) (hi : ∀ r, i ≠ .prn (regByte r)) :
    t.out = s.out := by
  cases h with
  | prn k => exact absurd rfl (hi k)
  | _ => rfl

/-- A PUSH or CALL stores one byte, at the new SP, and nothing else stores (R70). -/
theorem Completes.mem_eq {s t : State} {i : Instr} (h : Completes s i t) :
    t.mem = s.mem ∨ (∃ r : RegIdx, i = .push (regByte r) ∨ i = .call (regByte r)) ∧ t.sp = s.sp - 1 ∧
      ∃ v, t.mem = s.mem.write (s.sp - 1) v := by
  cases h with
  | push k _ => exact .inr ⟨⟨k, .inl rfl⟩, by simp, _, rfl⟩
  | call k _ => exact .inr ⟨⟨k, .inr rfl⟩, by simp, _, rfl⟩
  | _ => exact .inl rfl

theorem FaultCause.isFault (e : FaultCause) : e.status.isFault = true := by
  cases e <;> rfl

theorem exec_cfg {i : Instr} {s t : State} (h : exec i s = .next t) : t.cfg = s.cfg :=
  (kept_cfg s.cfg).exec_keeps i rfl t h

/-- A handler that completes raises no fault. -/
theorem Completes.isFault_eq {s t : State} {i : Instr} (h : Completes s i t) (hs : s.status.isFault = false) :
    t.status.isFault = false := by
  rcases h.status_eq with heq | ⟨-, heq⟩ <;> rw [heq]
  · exact hs
  · rfl

theorem isFault_of_running {s : State} (h : s.status = .running) : s.status.isFault = false := by
  rw [h]
  rfl

/-! ## A handler does not read what it does not name -/

/-- The checks read the parameters, `ir` and pc for their info, and SP where the instruction uses the stack. -/
theorem FailsCheck.congr {s s' : State} {i : Instr} {e : FaultCause} (h : FailsCheck s i e) (hcfg : s'.cfg = s.cfg)
    (hir : s'.ir = s.ir) (hpc : s'.pc = s.pc)
    (hsp : i.mnemonic = .push ∨ i.mnemonic = .pop ∨ i.mnemonic = .call → s'.sp = s.sp) : FailsCheck s' i e := by
  cases h with
  | notDispatched a b h => exact hir ▸ hpc ▸ .notDispatched a b (hcfg ▸ h)
  | badRegister hd h => exact .badRegister (hcfg ▸ hd) h
  | pushFull k h =>
    have hsp := hsp (.inl rfl)
    exact hsp ▸ .pushFull k (by rwa [hsp, hcfg])
  | callFull k h =>
    have hsp := hsp (.inr (.inr rfl))
    exact hsp ▸ .callFull k (by rwa [hsp, hcfg])
  | popEmpty k h =>
    have hsp := hsp (.inr (.inl rfl))
    exact hsp ▸ .popEmpty k (by rwa [hsp, hcfg])

/-- No handler reads `status` (R26). -/
theorem Completes.setStatus {s t : State} {i : Instr} (h : Completes s i t) (st : Status) :
    ∃ t', Completes (s.setStatus st) i t' ∧ { t' with status := t.status } = t := by
  cases h with
  | and i j hand => exact ⟨_, .and i j hand, rfl⟩
  | push k hsp => exact ⟨_, .push k hsp, rfl⟩
  | pop k hsp => exact ⟨_, .pop k hsp, rfl⟩
  | call k hsp => exact ⟨_, .call k hsp, rfl⟩
  | _ => exact ⟨_, by constructor, rfl⟩

/-- Settles O36: of the completed handlers only HLT writes `status`, and neither the checks nor the writes read it. -/
theorem onlyHltAndFaultsWriteStatus : Obligations.OnlyHltAndFaultsWriteStatus := by
  refine ⟨fun s hs => (terminalStatesAreFinal s hs).1, fun s t h hne => ?_, fun i s t st h => ?_⟩
  · by_cases hrun : s.status = .running
    · refine ⟨hrun, ?_⟩
      rcases step_inv hrun h with ⟨-, rfl⟩ | ⟨i, hi, hc | ⟨e, -, rfl⟩⟩
      · exact .inl rfl
      · rcases hc.status_eq with heq | ⟨rfl, heq⟩
        · exact absurd heq hne
        · exact .inr ⟨heq, hi⟩
      · exact .inl e.isFault
    · cases (terminalStatesAreFinal s hrun).1.symm.trans h
      exact absurd rfl hne
  · rcases exec_inv h with hc | ⟨e, hf, rfl⟩
    · obtain ⟨t', hc', ht'⟩ := hc.setStatus st
      exact ⟨t', hc'.exec_eq, ht'⟩
    · have hf' : FailsCheck (s.setStatus st) i e := hf.congr rfl rfl rfl fun _ => rfl
      exact ⟨_, hf'.exec_eq, rfl⟩

/-! ## Registers -/

theorem State.setReg_comm (s : State) {i k : RegIdx} (u v : Byte) (h : k ≠ i) :
    (s.setReg k v).setReg i u = (s.setReg i u).setReg k v := by
  simp only [State.setReg]
  rw [Vector.set_comm _ _ (fun hval => h (Fin.ext hval))]

theorem State.setSp_setReg_comm (s : State) {k : RegIdx} (u v : Byte) (h : k ≠ 7) :
    (s.setReg k v).setSp u = (s.setSp u).setReg k v := s.setReg_comm u v h

theorem regByte_eq_iff {i k : RegIdx} : regByte i = regByte k ↔ i = k := ⟨regByte_inj, congrArg regByte⟩

theorem ne_of_not_mem_singleton {k j : RegIdx} (h : regByte k ∉ [regByte j]) : k ≠ j := by
  simpa [regByte_eq_iff] using h

theorem ne_of_not_mem_pair {k i j : RegIdx} (h : regByte k ∉ [regByte i, regByte j]) : k ≠ i ∧ k ≠ j := by
  simpa [regByte_eq_iff] using h

/-- A register that a handler does not name is as it was (R13). -/
theorem Completes.reg_eq {s t : State} {i : Instr} (h : Completes s i t) {k : RegIdx} (hk : regByte k ∉ i.registers)
    (hstack : i.mnemonic = .push ∨ i.mnemonic = .pop ∨ i.mnemonic = .call → k ≠ 7) : t.reg k = s.reg k := by
  cases h with
  | hlt | prn | cmp | jmp | jeq | jne => rfl
  | ldi j imm => exact s.setReg_reg_ne _ _ _ (ne_of_not_mem_singleton hk)
  | add i j | mul i j | and i j => exact s.setReg_reg_ne _ _ _ (ne_of_not_mem_pair hk).1
  | push j | call j => exact s.setSp_reg_ne _ _ (hstack (by simp [Instr.mnemonic]))
  | pop j =>
    exact ((s.setSp _).setReg_reg_ne _ _ _ (ne_of_not_mem_singleton hk)).trans
      (s.setSp_reg_ne _ _ (hstack (by simp [Instr.mnemonic])))

/-- A handler carries the value of a register that it does not name through (R13). -/
theorem Completes.setReg {s t : State} {i : Instr} (h : Completes s i t) {k : RegIdx} (v : Byte)
    (hk : regByte k ∉ i.registers) (hstack : i.mnemonic = .push ∨ i.mnemonic = .pop ∨ i.mnemonic = .call → k ≠ 7) :
    Completes (s.setReg k v) i (t.setReg k v) := by
  have hother : ∀ {j : RegIdx}, k ≠ j → (s.setReg k v).reg j = s.reg j := fun hj => s.setReg_reg_ne _ _ v hj.symm
  cases h with
  | hlt => exact .hlt
  | ldi j imm =>
    have hc := Completes.ldi (s := s.setReg k v) j imm
    rwa [s.setReg_comm _ _ (ne_of_not_mem_singleton hk)] at hc
  | prn j =>
    have hc := Completes.prn (s := s.setReg k v) j
    rwa [hother (ne_of_not_mem_singleton hk)] at hc
  | cmp i j =>
    obtain ⟨hi, hj⟩ := ne_of_not_mem_pair hk
    have hc := Completes.cmp (s := s.setReg k v) i j
    rwa [hother hi, hother hj] at hc
  | add i j =>
    obtain ⟨hi, hj⟩ := ne_of_not_mem_pair hk
    have hc := Completes.add (s := s.setReg k v) i j
    rwa [hother hi, hother hj, s.setReg_comm _ _ hi] at hc
  | mul i j =>
    obtain ⟨hi, hj⟩ := ne_of_not_mem_pair hk
    have hc := Completes.mul (s := s.setReg k v) i j
    rwa [hother hi, hother hj, s.setReg_comm _ _ hi] at hc
  | and i j hand =>
    obtain ⟨hi, hj⟩ := ne_of_not_mem_pair hk
    have hc := Completes.and (s := s.setReg k v) i j hand
    rwa [hother hi, hother hj, s.setReg_comm _ _ hi] at hc
  | push j h =>
    have h7 : k ≠ 7 := hstack (.inl rfl)
    have hc := Completes.push (s := s.setReg k v) j (by rwa [s.setReg_sp_ne v h7])
    rwa [hother (ne_of_not_mem_singleton hk), s.setReg_sp_ne v h7, s.setSp_setReg_comm _ _ h7] at hc
  | pop j h =>
    have h7 : k ≠ 7 := hstack (.inr (.inl rfl))
    have hc := Completes.pop (s := s.setReg k v) j (by rwa [s.setReg_sp_ne v h7])
    rwa [s.setReg_sp_ne v h7, s.setSp_setReg_comm _ _ h7,
      State.setReg_comm _ _ _ (ne_of_not_mem_singleton hk)] at hc
  | call j h =>
    have h7 : k ≠ 7 := hstack (.inr (.inr rfl))
    have hc := Completes.call (s := s.setReg k v) j (by rwa [s.setReg_sp_ne v h7])
    rwa [hother (ne_of_not_mem_singleton hk), s.setReg_sp_ne v h7, s.setSp_setReg_comm _ _ h7] at hc
  | jmp j =>
    have hc := Completes.jmp (s := s.setReg k v) j
    rwa [hother (ne_of_not_mem_singleton hk)] at hc
  | jeq j =>
    have hc := Completes.jeq (s := s.setReg k v) j
    rwa [hother (ne_of_not_mem_singleton hk)] at hc
  | jne j =>
    have hc := Completes.jne (s := s.setReg k v) j
    rwa [hother (ne_of_not_mem_singleton hk)] at hc

/-- Settles O39: neither the checks nor the effects of a handler use a register that the instruction does not name. -/
theorem unnamedRegistersAreUntouched : Obligations.UnnamedRegistersAreUntouched := by
  refine ⟨fun i s t k v hk hstack h => ?_, fun s k v => s.setReg_reg_self k v⟩
  rcases exec_inv h with hc | ⟨e, hf, rfl⟩
  · exact ⟨hc.reg_eq hk hstack, (hc.setReg v hk hstack).exec_eq⟩
  · have hf' : FailsCheck (s.setReg k v) i e := hf.congr rfl rfl rfl fun hi => s.setReg_sp_ne v (hstack hi)
    exact ⟨rfl, hf'.exec_eq⟩

end Sys2Proof.Machine

/-! # Where a tick leaves pc, and its faults (spec 40_cycle.md section 4, 60_exceptions.md) -/

namespace Sys2Proof.Machine

/-! ## The PC update -/

/-- The default advance of a tick is over the bytes of the decoded instruction (R47, R66). -/
theorem advancedPc_of_decodesTo {s : State} {i : Instr} (hc : s.cfg.countsMatch) (hi : s.decodesTo i) :
    s.fetchOpcode.advancedPc = s.pc + BitVec.ofNat 8 (i.mnemonic.operandCount + 1) := by
  rw [State.advancedPc, State.fetchOpcode_ir, instrLen_of_dispatch hc (dispatch_of_decodesTo hi)]
  rfl

/-- A tick that leaves no fault completed its instruction. -/
theorem completes_of_step {s t : State} {i : Instr} (hrun : s.status = .running) (hi : s.decodesTo i)
    (h : step s = .next t) (hfault : t.status.isFault = false) : Completes s.fetchOpcode i t := by
  rcases exec_inv ((step_of_decodesTo hrun hi).symm.trans h) with hc | ⟨e, -, rfl⟩
  · exact hc
  · exact absurd e.isFault (by simpa using hfault)

/-- Settles O31: each arm is the pc of its form in `Completes`, the default advance being the length (R66). -/
theorem ticksLandAtTheNextInstruction : Obligations.TicksLandAtTheNextInstruction := by
  intro s t i hcounts hrun hi h hfault
  have hadv := advancedPc_of_decodesTo hcounts hi
  cases completes_of_step hrun hi h hfault with
  | hlt | prn | push | pop | ldi | add | mul | cmp | and => exact hadv
  | call k | jmp k => exact ⟨k, rfl, rfl⟩
  | jeq k | jne k => exact ⟨k, rfl, by rw [State.setPc_pc, hadv]; rfl⟩

/-! ## Faults -/

/-- The checks that follow the index check are made of an instruction whose indices are in range (D26). -/
theorem badRegister?_regByte (r : RegIdx) : [regByte r].find? (fun n => decide (7 < n.toNat)) = none := by
  simp [regByte_le r]

theorem Completes.badRegister?_eq {s t : State} {i : Instr} (h : Completes s i t) : i.badRegister? = none := by
  rw [badRegister?_eq_none]
  cases h <;> simp [Instr.registersInRange, Instr.registers, regByte_le]

/-- All that a tick of a running machine ends in when it faults (R97): the decode, an index, or a stack bound. -/
theorem step_fault_inv {s t : State} (hrun : s.status = .running) (h : step s = .next t)
    (hfault : t.status.isFault = true) :
    ∃ e, t = takeFault e s.fetchOpcode ∧
      ((dispatch s.cfg (s.mem.read s.pc) = none ∧ e = .invalidOpcode (s.mem.read s.pc) s.pc) ∨
        ∃ i, s.decodesTo i ∧ FailsCheck s.fetchOpcode i e) := by
  rcases step_inv hrun h with ⟨hd, rfl⟩ | ⟨i, hi, hc | ⟨e, hf, rfl⟩⟩
  · exact ⟨_, rfl, .inl ⟨hd, rfl⟩⟩
  · simp [hc.isFault_eq (isFault_of_running (s := s.fetchOpcode) hrun)] at hfault
  · exact ⟨e, rfl, .inr ⟨i, hi, hf⟩⟩

/-- Settles O32: a fault entry writes `status` alone after the fetch, and its status is terminal. -/
theorem faultsArePreciseAndFinal : Obligations.FaultsArePreciseAndFinal := by
  intro s t hrun h hfault
  obtain ⟨e, rfl, -⟩ := step_fault_inv hrun h hfault
  refine ⟨rfl, (terminalStatesAreFinal _ fun hst => ?_).2.2⟩
  rw [hst] at hfault
  exact absurd hfault (by decide)

/-- A decoded instruction is dispatched, so its handler does not raise InvalidOpcode. -/
theorem FailsCheck.status_ne_invalidOpcode {s : State} {i : Instr} {e : FaultCause} (hi : s.decodesTo i)
    (h : FailsCheck s.fetchOpcode i e) : e.status ≠ .invalidOpcode := by
  cases h with
  | notDispatched a b hand =>
    have hd : s.cfg.andDispatched = true := (dispatched_iff _ _).mp (dispatched_of_decodesTo hi) rfl
    exact absurd hd (by simpa using hand)
  | _ => nofun

theorem step_of_failsCheck {s : State} {i : Instr} {e : FaultCause} (hrun : s.status = .running)
    (hi : s.decodesTo i) (h : FailsCheck s.fetchOpcode i e) : step s = .next (takeFault e s.fetchOpcode) :=
  (step_of_decodesTo hrun hi).trans h.exec_eq

section FaultConditions

variable {s t : State} (hrun : s.status = .running) (h : step s = .next t)
include hrun h

/-- InvalidOpcode is the fault of a byte with no table entry (R98). -/
theorem step_invalidOpcode_iff : t.status = .invalidOpcode ↔ dispatch s.cfg (s.mem.read s.pc) = none := by
  constructor
  · intro hst
    obtain ⟨e, rfl, ⟨hd, -⟩ | ⟨i, hi, hf⟩⟩ := step_fault_inv hrun h (by rw [hst]; rfl)
    · exact hd
    · exact absurd hst (hf.status_ne_invalidOpcode hi)
  · intro hd
    cases (step_of_dispatch_none hrun hd).symm.trans h
    rfl

/-- InvalidRegister is the fault of a decoded instruction with an index above 7 (R99). -/
theorem step_invalidRegister_iff :
    t.status = .invalidRegister ↔ ∃ i, s.decodesTo i ∧ ∃ n ∈ i.registers, 7 < n.toNat := by
  constructor
  · intro hst
    obtain ⟨e, rfl, ⟨-, rfl⟩ | ⟨i, hi, hf⟩⟩ := step_fault_inv hrun h (by rw [hst]; rfl)
    · cases hst
    · cases hf with
      | badRegister hd hbad =>
        exact ⟨i, hi, _, List.mem_of_find?_eq_some hbad, by simpa using List.find?_some hbad⟩
      | _ => cases hst
  · rintro ⟨i, hi, hbad⟩
    cases ((step_of_decodesTo hrun hi).trans (exec_of_badIndex (dispatched_of_decodesTo hi) hbad)).symm.trans h
    rfl

/-- StackOverflow is the fault of a PUSH or CALL at the floor or below (R85). -/
theorem step_stackOverflow_iff : t.status = .stackOverflow ↔
    ∃ r : RegIdx, (s.decodesTo (.push (regByte r)) ∨ s.decodesTo (.call (regByte r))) ∧
      s.sp.toNat ≤ s.cfg.stackFloor.toNat := by
  constructor
  · intro hst
    obtain ⟨e, rfl, ⟨-, rfl⟩ | ⟨i, hi, hf⟩⟩ := step_fault_inv hrun h (by rw [hst]; rfl)
    · cases hst
    · cases hf with
      | pushFull k hsp => exact ⟨k, .inl hi, hsp⟩
      | callFull k hsp => exact ⟨k, .inr hi, hsp⟩
      | _ => cases hst
  · rintro ⟨r, hi | hi, hsp⟩
    · cases (step_of_failsCheck hrun hi (.pushFull r hsp)).symm.trans h
      rfl
    · cases (step_of_failsCheck hrun hi (.callFull r hsp)).symm.trans h
      rfl

/-- StackUnderflow is the fault of a POP at the top or above (R86). -/
theorem step_stackUnderflow_iff : t.status = .stackUnderflow ↔
    ∃ r : RegIdx, s.decodesTo (.pop (regByte r)) ∧ s.cfg.spInit.toNat ≤ s.sp.toNat := by
  constructor
  · intro hst
    obtain ⟨e, rfl, ⟨-, rfl⟩ | ⟨i, hi, hf⟩⟩ := step_fault_inv hrun h (by rw [hst]; rfl)
    · cases hst
    · cases hf with
      | popEmpty k hsp => exact ⟨k, hi, hsp⟩
      | _ => cases hst
  · rintro ⟨r, hi, hsp⟩
    cases (step_of_failsCheck hrun hi (.popEmpty r hsp)).symm.trans h
    rfl

end FaultConditions

/-- Settles O33: a fault of each kind comes from one form of failed check, and that check, failed, gives the fault. -/
theorem faultsHaveTheStatedConditions : Obligations.FaultsHaveTheStatedConditions :=
  fun _ _ hrun h => ⟨step_invalidOpcode_iff hrun h, step_invalidRegister_iff hrun h, step_stackOverflow_iff hrun h,
    step_stackUnderflow_iff hrun h⟩

/-! ## What the host can tell -/

theorem instrOf_registers_isPrefix (m : Mnemonic) (opA opB : Byte) : (instrOf m opA opB).registers <+: [opA, opB] := by
  cases m <;> simp [instrOf, Instr.registers]

/-- The first bad index of a decoded instruction is the operand byte that the host finds (R102). -/
theorem badRegister?_instrOf {m : Mnemonic} {opA opB n : Byte} (h : (instrOf m opA opB).badRegister? = some n) :
    n = if opA.toNat ≤ 7 then opB else opA := by
  have hfind : [opA, opB].find? (fun n => decide (7 < n.toNat)) = some n :=
    (instrOf_registers_isPrefix m opA opB).find?_eq_some h
  split
  · next ha =>
    obtain ⟨-, rfl⟩ : 7 < opB.toNat ∧ opB = n := by simpa [Nat.not_lt.mpr ha] using hfind
    rfl
  · next ha =>
    obtain rfl : opA = n := by simpa [Nat.not_le.mp ha] using hfind
    rfl

theorem faultReport_of_badRegister {s : State} {i : Instr} {n : Byte} (hi : s.decodesTo i)
    (h : i.badRegister? = some n) :
    faultReport (takeFault (.invalidRegister n) s.fetchOpcode) = some (.invalidRegister n) := by
  obtain ⟨m, -, rfl⟩ := (decodesTo_iff s i).mp hi
  rw [badRegister?_instrOf h]
  rfl

theorem faultReport_of_not_fault {t : State} (h : t.status.isFault = false) : faultReport t = none := by
  unfold faultReport
  cases hst : t.status with
  | running | halted => rfl
  | _ => simp [hst, Status.isFault, Status.code] at h

/-- Settles O34: after a fault entry the host reads the info of the failed check in the state; where no check failed the
status is no fault's. -/
theorem theFirstFailedCheckIsReported : Obligations.TheFirstFailedCheckIsReported := by
  intro s t hrun h
  refine ⟨fun hd => ?_, fun i hi => ?_⟩
  · cases (step_of_dispatch_none hrun hd).symm.trans h
    rfl
  · rcases exec_inv ((step_of_decodesTo hrun hi).symm.trans h) with hc | ⟨e, hf, rfl⟩
    · have hnone := faultReport_of_not_fault (hc.isFault_eq (isFault_of_running hrun))
      rw [show i.registers.find? (fun n => decide (7 < n.toNat)) = none from hc.badRegister?_eq]
      cases hc with
      | push k hsp | call k hsp => exact hnone.trans (if_neg (Nat.not_le.mpr hsp)).symm
      | pop k hsp => exact hnone.trans (if_neg (Nat.not_le.mpr hsp)).symm
      | _ => exact hnone
    · cases hf with
      | notDispatched a b hand => exact absurd rfl ((FailsCheck.notDispatched a b hand).status_ne_invalidOpcode hi)
      | badRegister hd hbad =>
        rw [show i.registers.find? (fun n => decide (7 < n.toNat)) = _ from hbad]
        exact faultReport_of_badRegister hi hbad
      | pushFull k hsp | callFull k hsp =>
        simp only [Instr.registers, badRegister?_regByte]
        exact (if_pos hsp).symm
      | popEmpty k hsp =>
        simp only [Instr.registers, badRegister?_regByte]
        exact (if_pos hsp).symm

/-! ## Output -/

/-- Settles O37: of the completed handlers only PRN writes the output (`Completes.out_eq`), and no fault does. -/
theorem onlyPrnProducesOutput : Obligations.OnlyPrnProducesOutput := by
  refine fun s t h => ⟨fun r hrun hi => ?_, fun hno => ?_⟩
  · cases ((step_of_decodesTo hrun hi).trans (Completes.prn r).exec_eq).symm.trans h
    rfl
  · by_cases hrun : s.status = .running
    · rcases step_inv hrun h with ⟨-, rfl⟩ | ⟨i, hi, hc | ⟨e, -, rfl⟩⟩
      · rfl
      · exact hc.out_eq fun r hr => hno r hrun (hr ▸ hi)
      · rfl
    · cases (terminalStatesAreFinal s hrun).1.symm.trans h
      rfl

/-! ## Stores and accesses -/

/-- Settles O38: only a PUSH or CALL that completes stores, and it stores one byte (`Completes.mem_eq`). -/
theorem onlyTheNewStackByteIsWritten : Obligations.OnlyTheNewStackByteIsWritten := by
  intro s t x h hx
  by_cases hrun : s.status = .running
  · rcases step_inv hrun h with ⟨-, rfl⟩ | ⟨i, hi, hc | ⟨e, -, rfl⟩⟩
    · exact absurd rfl hx
    · rcases hc.mem_eq with heq | ⟨⟨r, hr⟩, hsp, v, heq⟩
      · rw [heq] at hx
        exact absurd rfl hx
      · rw [heq] at hx
        obtain rfl : x = s.sp - 1 := by
          by_contra hne
          exact hx (Memory.read_write_ne hne)
        exact ⟨rfl, hsp, r, hr.imp (fun heq => by rwa [← heq]) (fun heq => by rwa [← heq])⟩
    · exact absurd rfl hx
  · cases (terminalStatesAreFinal s hrun).1.symm.trans h
    exact absurd rfl hx

theorem FailsCheck.handlerAccesses_eq {s : State} {i : Instr} {e : FaultCause} (h : FailsCheck s i e) :
    handlerAccesses i s = [] := by
  cases h with
  | notDispatched => rfl
  | badRegister hd h =>
    cases i with
    | push r | pop r | call r =>
      obtain ⟨hr, -⟩ : 7 < r.toNat ∧ r = _ := by simpa [Instr.badRegister?, Instr.registers] using h
      simp [handlerAccesses, Nat.not_le.mpr hr]
    | _ => rfl
  | pushFull k h | callFull k h => simp [handlerAccesses, h]
  | popEmpty k h => simp [handlerAccesses, h]

/-- The access of a handler whose checks pass: a write for PUSH and CALL, a read for POP, none for the others (R39);
`handlerAccesses` without its checks (`Completes.handlerAccesses_eq`). -/
def passedAccesses (i : Instr) (s : State) : List Access :=
  match i with
  | .push r => [.write (s.sp - 1) (s.reg (Fin.ofNat 8 r.toNat))]
  | .call _ => [.write (s.sp - 1) (s.pc + 2)]
  | .pop _ => [.read s.sp (s.mem.read s.sp)]
  | _ => []

theorem ofNat_regByte (k : RegIdx) : Fin.ofNat 8 (regByte k).toNat = k :=
  Fin.ext (by rw [Fin.val_ofNat, regByte_toNat, Nat.mod_eq_of_lt k.isLt])

theorem Completes.handlerAccesses_eq {s t : State} {i : Instr} (h : Completes s i t) :
    handlerAccesses i s = passedAccesses i s := by
  cases h with
  | push k h =>
    simp only [handlerAccesses, passedAccesses, dif_pos (regByte_le k), if_neg (Nat.not_le.mpr h), ofNat_regByte]
    simp only [regByte_toNat]
  | pop k h | call k h =>
    simp only [handlerAccesses, if_pos (regByte_le k), if_neg (Nat.not_le.mpr h)]
    rfl
  | _ => rfl

/-- Done one at a time, the accesses of a handler that completes make its memory (R38, R39). -/
theorem Completes.apply_handlerAccesses {s t : State} {i : Instr} (h : Completes s i t) :
    s.mem.apply (handlerAccesses i s) = t.mem := by
  rw [h.handlerAccesses_eq]
  cases h with
  | push k =>
    rw [passedAccesses, ofNat_regByte]
    rfl
  | _ => rfl

/-- The accesses of a tick that has an instruction (R39). -/
theorem tickAccesses_of_decodesTo {s : State} {i : Instr} (hrun : s.status = .running) (hi : s.decodesTo i) :
    tickAccesses s = .read s.pc (s.mem.read s.pc) :: .read (s.pc + 1) (s.mem.read (s.pc + 1)) ::
      .read (s.pc + 2) (s.mem.read (s.pc + 2)) :: handlerAccesses i s.fetchOpcode := by
  simp only [tickAccesses, if_pos hrun, (fetched_ok_iff s i).mpr hi]

/-- The reads of a tick leave memory to the handler's access. -/
theorem apply_tickAccesses {s : State} {i : Instr} (hrun : s.status = .running) (hi : s.decodesTo i) :
    s.mem.apply (tickAccesses s) = s.mem.apply (handlerAccesses i s.fetchOpcode) := by
  rw [tickAccesses_of_decodesTo hrun hi]
  rfl

/-- Settles O45: the handler's one access is that of its form where it completes (`Completes.handlerAccesses_eq`), and
none where a check fails. -/
theorem tickAccessesAreInOrder : Obligations.TickAccessesAreInOrder := by
  refine ⟨fun s t h => ?_, fun s hrun hd => (invalidOpcodeHaltsAtItsAddress.1 s hrun hd).2.1,
    fun s t i hrun hi h => ?_⟩
  · by_cases hrun : s.status = .running
    · rcases step_inv hrun h with ⟨hd, rfl⟩ | ⟨i, hi, hc | ⟨e, hf, rfl⟩⟩
      · rw [(invalidOpcodeHaltsAtItsAddress.1 s hrun hd).2.1]
        rfl
      · rw [apply_tickAccesses hrun hi]
        exact hc.apply_handlerAccesses
      · rw [apply_tickAccesses hrun hi, hf.handlerAccesses_eq]
        rfl
    · obtain ⟨hstep, hacc, -⟩ := terminalStatesAreFinal s hrun
      cases hstep.symm.trans h
      rw [hacc]
      rfl
  · rw [tickAccesses_of_decodesTo hrun hi]
    rcases exec_inv ((step_of_decodesTo hrun hi).symm.trans h) with hc | ⟨e, hf, rfl⟩
    · rw [hc.isFault_eq (isFault_of_running hrun), if_neg Bool.false_ne_true, hc.handlerAccesses_eq]
      rfl
    · rw [takeFault_status, if_pos e.isFault, hf.handlerAccesses_eq]

/-- The three bytes at a later pc, after one write (R42). -/
theorem fetchBytes_of_write {s t : State} {a : Addr} {v : Byte} (hwf : s.mem.wf) (hmem : t.mem = s.mem.write a v)
    (p : Addr) : ({ t with pc := p } : State).fetchBytes =
      [p, p + 1, p + 2].map fun x => if x = a then v else s.mem.read x := by
  simp only [State.fetchBytes, hmem, Memory.read_write hwf, List.map_cons, List.map_nil]

theorem Completes.push_inv {s t : State} {r : RegIdx} (h : Completes s (.push (regByte r)) t) :
    s.cfg.stackFloor.toNat < s.sp.toNat ∧
      t = ((s.setSp (s.sp - 1)).store (s.sp - 1) (s.reg r)).setPc s.advancedPc := by
  generalize hr : regByte r = n at h
  cases h with
  | push k hsp => exact ⟨hsp, by rw [regByte_inj hr]⟩

theorem Completes.call_inv {s t : State} {r : RegIdx} (h : Completes s (.call (regByte r)) t) :
    s.cfg.stackFloor.toNat < s.sp.toNat ∧
      t = ((s.setSp (s.sp - 1)).store (s.sp - 1) (s.pc + 2)).setPc (s.reg r) := by
  generalize hr : regByte r = n at h
  cases h with
  | call k hsp => exact ⟨hsp, by rw [regByte_inj hr]⟩

/-- Settles O46: the store is a write of memory, and every later fetch reads that memory. -/
theorem stackWritesAreSeenByLaterFetches : Obligations.StackWritesAreSeenByLaterFetches := by
  rintro s t v p hwf hrun h hfault (⟨r, hi, rfl⟩ | ⟨r, hi, rfl⟩)
  · obtain ⟨-, rfl⟩ := (completes_of_step hrun hi h hfault).push_inv
    exact fetchBytes_of_write hwf rfl p
  · obtain ⟨-, rfl⟩ := (completes_of_step hrun hi h hfault).call_inv
    exact fetchBytes_of_write hwf rfl p

end Sys2Proof.Machine

/-! # The stack (spec 43_stack.md) and the frames of the instructions -/

namespace Sys2Proof.Machine

/-! ## SP as a number -/

theorem toNat_sub_one {x : Byte} {n : Nat} (h : n < x.toNat) : (x - 1).toNat + 1 = x.toNat := by
  bv_omega

theorem toNat_add_one {x y : Byte} (h : x.toNat < y.toNat) : (x + 1).toNat = x.toNat + 1 := by
  bv_omega

/-- A PUSH or CALL raises its fault and leaves SP, or SP was above the floor and goes down by one (R85). -/
theorem exec_push_call_sp {i : Instr} {s t : State} (hi : (∃ r, i = .push r) ∨ (∃ r, i = .call r))
    (h : exec i s = .next t) :
    t.status.isFault = true ∧ t.sp = s.sp ∨
      t.status = s.status ∧ s.cfg.stackFloor.toNat < s.sp.toNat ∧ t.sp.toNat + 1 = s.sp.toNat := by
  rcases exec_inv h with hc | ⟨e, -, rfl⟩
  · right
    cases hc with
    | push k hsp | call k hsp => exact ⟨rfl, hsp, by simpa using toNat_sub_one hsp⟩
    | _ => simp at hi
  · exact .inl ⟨e.isFault, rfl⟩

/-- A POP of another register than R7 raises its fault and leaves SP, or SP was below the top and goes up by one
(R86). -/
theorem exec_pop_sp {r : Byte} {s t : State} (hr : r ≠ 7) (h : exec (.pop r) s = .next t) :
    t.status.isFault = true ∧ t.sp = s.sp ∨
      t.status = s.status ∧ s.sp.toNat < s.cfg.spInit.toNat ∧ t.sp.toNat = s.sp.toNat + 1 := by
  rcases exec_inv h with hc | ⟨e, -, rfl⟩
  · cases hc with
    | pop k hsp =>
      have hk : k ≠ 7 := fun h7 => hr (h7 ▸ rfl)
      exact .inr ⟨rfl, hsp, by simpa [State.setReg_sp_ne _ _ hk] using toNat_add_one hsp⟩
  · exact .inl ⟨e.isFault, rfl⟩

/-- Settles O50: SP goes down by one from above the floor and up by one from below the top, or stays. -/
theorem stackOperationsKeepTheBounds : Obligations.StackOperationsKeepTheBounds := by
  refine ⟨fun i s t hi h => ?_, fun r s t hr h => ?_, fun i s t hi h hfloor htop => ?_⟩
  · exact (exec_push_call_sp hi h).imp_right fun ⟨hst, _, hsp⟩ => ⟨hst, hsp⟩
  · exact (exec_pop_sp hr h).imp_right fun ⟨hst, _, hsp⟩ => ⟨hst, hsp⟩
  · rcases or_assoc.mpr hi with hi | ⟨r, rfl, hr⟩
    · rcases exec_push_call_sp hi h with ⟨-, hsp⟩ | ⟨-, hlt, hsp⟩
      · exact hsp ▸ ⟨hfloor, htop⟩
      · omega
    · rcases exec_pop_sp hr h with ⟨-, hsp⟩ | ⟨-, hlt, hsp⟩
      · exact hsp ▸ ⟨hfloor, htop⟩
      · omega

/-! ## A POP after a PUSH or a CALL -/

/-- After the store of a PUSH or CALL, the POP that follows completes, gives the stored byte, and puts SP back. -/
theorem pop_after_store {s t : State} {v : Byte} (hwf : s.mem.wf) (hfloor : s.cfg.stackFloor.toNat < s.sp.toNat)
    (htop : s.sp.toNat ≤ s.cfg.spInit.toNat) (hcfg : t.cfg = s.cfg) (hsp : t.sp = s.sp - 1)
    (hmem : t.mem = s.mem.write (s.sp - 1) v) (k : RegIdx) :
    exec (.pop (regByte k)) t = .next (((t.setSp s.sp).setReg k v).setPc t.advancedPc) := by
  have hlt : t.sp.toNat < t.cfg.spInit.toNat := by
    have := toNat_sub_one hfloor
    rw [hsp, hcfg]
    omega
  rw [(Completes.pop k hlt).exec_eq, hsp, hmem, Memory.read_write_self hwf, BitVec.sub_add_cancel]

/-- Settles O47: the PUSH stores below SP, and the POP reads there (`pop_after_store`). -/
theorem popAfterPushRestores : Obligations.PopAfterPushRestores := by
  intro s r r2 hwf hfloor htop
  refine ⟨_, _, (Completes.push r hfloor).exec_eq, pop_after_store hwf hfloor htop (by rfl) (by simp) (by rfl) r2, rfl,
    by simp, fun h7 => by simp [State.setReg_sp_ne _ _ h7], ?_⟩
  simpa using Memory.read_write_self hwf

/-- Settles O48: the CALL stores the return address below SP, the POP gives it to `Rk`, and the JMP goes there. -/
theorem popThenJmpReturnsFromCall : Obligations.PopThenJmpReturnsFromCall := by
  refine ⟨by decide, by decide, fun s r k hwf h7 hfloor htop => ?_⟩
  refine ⟨_, _, _, (Completes.call r hfloor).exec_eq, rfl,
    pop_after_store hwf hfloor htop (by rfl) (by simp) (by rfl) k, (Completes.jmp k).exec_eq, by simp,
    by simp [State.setReg_sp_ne _ _ h7], rfl⟩

/-! ## The stack as a list -/

theorem stackContents_length (s : State) : s.stackContents.length = s.cfg.spInit.toNat - s.sp.toNat := by
  simp [State.stackContents, State.stackDepth]

/-- Below the top, the contents are the byte at SP and the contents from one byte up, as long as the two states hold
the same bytes there. -/
theorem stackContents_cons {s u : State} (hlt : s.sp.toNat < s.cfg.spInit.toNat) (hcfg : u.cfg = s.cfg)
    (hsp : u.sp = s.sp + 1)
    (hmem : ∀ k < u.stackDepth, u.mem.read (u.sp + BitVec.ofNat 8 k) = s.mem.read (u.sp + BitVec.ofNat 8 k)) :
    s.stackContents = s.mem.read s.sp :: u.stackContents := by
  have hdepth : s.stackDepth = u.stackDepth + 1 := by
    have := toNat_add_one hlt
    rw [State.stackDepth, State.stackDepth, hcfg, hsp]
    omega
  have haddr : ∀ k, s.sp + BitVec.ofNat 8 (k + 1) = u.sp + BitVec.ofNat 8 k := fun k => by
    rw [hsp, Nat.add_comm, BitVec.ofNat_add, BitVec.add_assoc]
    rfl
  rw [State.stackContents, hdepth, List.range_succ_eq_map, List.map_cons, List.map_map, State.stackContents]
  congr 1
  · exact congrArg s.mem.read (BitVec.add_zero _)
  · refine List.map_congr_left fun k hk => ?_
    rw [hmem k (List.mem_range.mp hk), ← haddr]
    rfl

/-- The byte below SP is none of the stack's. -/
theorem stack_addr_ne {s : State} {k : Nat} (hk : k < s.stackDepth) : s.sp + BitVec.ofNat 8 k ≠ s.sp - 1 := by
  unfold State.stackDepth at hk
  bv_omega

/-- A store below SP puts its byte in front of the stack. -/
theorem stackContents_of_store {s t : State} {v : Byte} (hwf : s.mem.wf)
    (hfloor : s.cfg.stackFloor.toNat < s.sp.toNat) (htop : s.sp.toNat ≤ s.cfg.spInit.toNat) (hcfg : t.cfg = s.cfg)
    (hsp : t.sp = s.sp - 1) (hmem : t.mem = s.mem.write (s.sp - 1) v) :
    t.stackContents = v :: s.stackContents := by
  have hlt : t.sp.toNat < t.cfg.spInit.toNat := by
    have := toNat_sub_one hfloor
    rw [hsp, hcfg]
    omega
  rw [stackContents_cons hlt hcfg.symm (by rw [hsp, BitVec.sub_add_cancel]) fun k hk => ?_, hsp, hmem,
    Memory.read_write_self hwf]
  rw [hmem, Memory.read_write_ne (stack_addr_ne hk)]

/-- Settles O49: a store below SP puts a byte in front of the list, and a POP takes it off. -/
theorem theStackIsLastInFirstOut : Obligations.TheStackIsLastInFirstOut := by
  refine ⟨stackContents_length, fun s htop => ?_, fun s hlt => ?_, fun s t r hwf hfloor htop h => ?_,
    fun s t r hwf hfloor htop h => ?_, fun s t r h7 hlt h => ?_⟩
  · rw [← List.length_eq_zero_iff, stackContents_length, BitVec.toNat_eq]
    omega
  · rw [stackContents_cons (u := s.setSp (s.sp + 1)) hlt rfl (by simp) fun _ _ => rfl]
    rfl
  · cases (Completes.push r hfloor).exec_eq.symm.trans h
    exact stackContents_of_store hwf hfloor htop rfl (by simp) rfl
  · cases (Completes.call r hfloor).exec_eq.symm.trans h
    exact stackContents_of_store hwf hfloor htop rfl (by simp) rfl
  · have ht : t = ((s.setSp (s.sp + 1)).setReg r (s.mem.read s.sp)).setPc s.advancedPc :=
      Host.Outcome.next.inj (h.symm.trans (Completes.pop r hlt).exec_eq)
    have hsp : t.sp = s.sp + 1 := by simp [ht, State.setReg_sp_ne _ _ h7]
    have hreg : t.reg r = s.mem.read s.sp := by simp [ht]
    rw [stackContents_cons hlt (exec_cfg h) hsp fun k _ => by rw [ht]; rfl, hreg]

/-! ## Frames -/

/-- Settles O51: each of the four writes one register and pc. -/
theorem registerWriteFrame : Obligations.RegisterWriteFrame := by
  intro i d s t hi h
  rcases exec_inv h with hc | ⟨e, -, rfl⟩
  · have hother : ∀ (j k : RegIdx) (v : Byte), regByte k ≠ regByte j → (s.setReg j v).reg k = s.reg k :=
      fun j k v hk => s.setReg_reg_ne j k v fun heq => hk (congrArg regByte heq)
    rcases hi with ⟨v, rfl⟩ | ⟨b, rfl⟩ | ⟨b, rfl⟩ | ⟨b, rfl⟩ <;> cases hc <;>
      exact ⟨fun k hk => hother _ k _ hk, rfl, rfl, rfl, rfl, fun _ => rfl, .inl rfl⟩
  · exact ⟨fun _ _ => rfl, rfl, rfl, rfl, rfl, fun _ => rfl, .inr ⟨e.isFault, rfl, fun _ => rfl⟩⟩

/-- Settles O52: CMP writes FL, PRN the output, HLT the status, and each of them pc; a failed check of these forms is
that of an index. -/
theorem noRegisterWriteFrame : Obligations.NoRegisterWriteFrame := by
  intro i s t hi h
  rcases exec_inv h with hc | ⟨e, hf, rfl⟩
  · cases hc with
    | hlt => exact ⟨fun _ => rfl, rfl, rfl, fun _ => rfl, fun _ => rfl, fun _ => rfl, .inr (.inl rfl)⟩
    | prn => exact ⟨fun _ => rfl, rfl, rfl, fun _ => rfl, fun _ => rfl, fun hne => absurd rfl hne, .inl rfl⟩
    | cmp => exact ⟨fun _ => rfl, rfl, rfl, fun _ => rfl, fun hne => absurd rfl hne, fun _ => rfl, .inl rfl⟩
    | jmp | jeq | jne => exact ⟨fun _ => rfl, rfl, rfl, fun _ => rfl, fun _ => rfl, fun _ => rfl, .inl rfl⟩
    | ldi | add | mul | and | push | pop | call => simp [Instr.mnemonic] at hi
  · cases hf with
    | badRegister =>
      exact ⟨fun _ => rfl, rfl, rfl, fun _ => rfl, fun _ => rfl, fun _ => rfl, .inr (.inr ⟨rfl, rfl, rfl, rfl⟩)⟩
    | notDispatched | pushFull | callFull | popEmpty => simp [Instr.mnemonic] at hi

/-- Settles O53: the two write R7, the byte below SP, and pc. -/
theorem stackStoreFrame : Obligations.StackStoreFrame := by
  intro i s t hi h
  rcases exec_inv h with hc | ⟨e, -, rfl⟩
  · cases hc with
    | push | call =>
      exact ⟨fun k hk => s.setSp_reg_ne k _ hk, rfl, rfl, rfl, rfl, fun _ hx => Memory.read_write_ne hx, .inl rfl⟩
    | _ => simp at hi
  · exact ⟨fun _ _ => rfl, rfl, rfl, rfl, rfl, fun _ _ => rfl, .inr ⟨e.isFault, rfl, rfl, fun _ => rfl⟩⟩

/-- Settles O54: POP writes its register, R7, and pc. -/
theorem stackLoadFrame : Obligations.StackLoadFrame := by
  intro r s t h
  rcases exec_inv h with hc | ⟨e, -, rfl⟩
  · cases hc with
    | pop j =>
      refine ⟨fun k h7 hk => ?_, rfl, rfl, rfl, rfl, fun _ => rfl, .inl rfl⟩
      exact ((s.setSp _).setReg_reg_ne j k _ fun heq => hk (congrArg regByte heq)).trans (s.setSp_reg_ne k _ h7)
  · exact ⟨fun _ _ _ => rfl, rfl, rfl, rfl, rfl, fun _ => rfl, .inr ⟨e.isFault, rfl, fun _ => rfl⟩⟩

end Sys2Proof.Machine

/-! # The assembly text (spec 30_encoding.md R56)

A printed operand is plain: no space, comma or semicolon. So the reader splits a printed statement where the printer
joined it, and each operand reads back by itself. -/

namespace Sys2Proof.Machine

/-- None of the characters that separate the parts of a listing. -/
def PlainText (cs : List Char) : Prop := ∀ c ∈ cs, c ≠ ' ' ∧ c ≠ ',' ∧ c ≠ ';'

theorem PlainText.no_space {cs : List Char} (h : PlainText cs) : ' ' ∉ cs := fun hc => (h _ hc).1 rfl
theorem PlainText.no_comma {cs : List Char} (h : PlainText cs) : ',' ∉ cs := fun hc => (h _ hc).2.1 rfl
theorem PlainText.no_semicolon {cs : List Char} (h : PlainText cs) : ';' ∉ cs := fun hc => (h _ hc).2.2 rfl

/-! ## Numbers -/

theorem digitChar_plain : ∀ d < 10, digitChar d ≠ ' ' ∧ digitChar d ≠ ',' ∧ digitChar d ≠ ';' := by decide

theorem digitChar_ne_x : ∀ d < 10, digitChar d ≠ 'x' := by decide

theorem decimalDigit_digitChar : ∀ d < 10, decimalDigit (digitChar d) = some d := by decide

/-- A byte is written as the digits of its value, one to three of them. -/
theorem decimalChars_eq (v : Byte) : ∃ ds : List Nat, decimalChars v = ds.map digitChar ∧ ds ≠ [] ∧
    (∀ d ∈ ds, d < 10) ∧ ds.foldl (fun acc d => 10 * acc + d) 0 = v.toNat := by
  have hv := v.isLt
  simp only [decimalChars]
  split
  · exact ⟨[v.toNat], rfl, by simp, by simpa, by simp⟩
  · split
    · exact ⟨[v.toNat / 10, v.toNat % 10], rfl, by simp, by simp; omega, by simp; omega⟩
    · exact ⟨[v.toNat / 100, v.toNat / 10 % 10, v.toNat % 10], rfl, by simp, by simp; omega, by simp; omega⟩

theorem digitsValue_map_digitChar {ds : List Nat} (h : ∀ d ∈ ds, d < 10) (acc : Nat) :
    digitsValue 10 decimalDigit acc (ds.map digitChar) = some (ds.foldl (fun acc d => 10 * acc + d) acc) := by
  induction ds generalizing acc with
  | nil => rfl
  | cons d ds ih =>
    obtain ⟨hd, hds⟩ := List.forall_mem_cons.mp h
    simp only [List.map_cons, digitsValue, decimalDigit_digitChar d hd, List.foldl_cons]
    exact ih hds _

/-- A text without the hexadecimal mark is read as a decimal number. -/
theorem parseImm_of_no_x {cs : List Char} (hne : cs ≠ []) (hx : 'x' ∉ cs) :
    parseImm cs = (digitsValue 10 decimalDigit 0 cs).bind byteOfNat := by
  unfold parseImm
  split
  · exact absurd rfl hne
  · simp at hx
  · simp at hx
  · rfl

/-- An immediate reads back. -/
theorem parseImm_decimalChars (v : Byte) : parseImm (decimalChars v) = some v := by
  obtain ⟨ds, heq, hne, hlt, hval⟩ := decimalChars_eq v
  have hx : 'x' ∉ ds.map digitChar := by
    rw [List.mem_map]
    rintro ⟨d, hd, hdx⟩
    exact digitChar_ne_x d (hlt d hd) hdx
  have hv : v.toNat ≤ 255 := Nat.le_of_lt_succ v.isLt
  rw [heq, parseImm_of_no_x (by simpa using hne) hx, digitsValue_map_digitChar hlt, hval, Option.bind_some, byteOfNat,
    if_pos hv, BitVec.ofNat_toNat, BitVec.setWidth_eq]

/-- A register reads back. -/
theorem parseReg_regChars : ∀ k : RegIdx, parseReg (regChars (regByte k)) = some (regByte k) := by decide

/-! ## Printed texts are plain -/

theorem mnemonicChars_plain (m : Mnemonic) : PlainText (Mnemonic.chars m) := by
  cases m <;> simp [PlainText, Mnemonic.chars]

theorem mnemonicChars_ne_nil (m : Mnemonic) : Mnemonic.chars m ≠ [] := by
  cases m <;> simp [Mnemonic.chars]

theorem decimalChars_plain (v : Byte) : PlainText (decimalChars v) := by
  obtain ⟨ds, heq, -, hlt, -⟩ := decimalChars_eq v
  rw [heq]
  intro c hc
  obtain ⟨d, hd, rfl⟩ := List.mem_map.mp hc
  exact digitChar_plain d (hlt d hd)

theorem regChars_plain (n : Byte) : PlainText (regChars n) := by
  intro c hc
  rcases List.mem_cons.mp hc with rfl | hc
  · decide
  · exact decimalChars_plain n c hc

/-! ## Splitting and trimming -/

theorem splitAtChar_of_not_mem {sep : Char} {cs : List Char} (h : sep ∉ cs) : splitAtChar sep cs = [cs] := by
  induction cs with
  | nil => rfl
  | cons c cs ih =>
    obtain ⟨hc, hcs⟩ := not_or.mp (List.mem_cons.not.mp h)
    simp only [splitAtChar, beq_iff_eq, if_neg (Ne.symm hc), ih hcs]

theorem splitAtChar_append {sep : Char} {cs : List Char} (h : sep ∉ cs) (ds : List Char) :
    splitAtChar sep (cs ++ sep :: ds) = cs :: splitAtChar sep ds := by
  induction cs with
  | nil => simp [splitAtChar]
  | cons c cs ih =>
    obtain ⟨hc, hcs⟩ := not_or.mp (List.mem_cons.not.mp h)
    simp only [List.cons_append, splitAtChar, beq_iff_eq, if_neg (Ne.symm hc), ih hcs]

/-- A text with no space at either end is not trimmed. -/
theorem trimSpaces_of_ends {cs : List Char} (hhead : ∀ h : cs ≠ [], cs.head h ≠ ' ')
    (hlast : ∀ h : cs ≠ [], cs.getLast h ≠ ' ') : trimSpaces cs = cs := by
  have hl : cs.dropWhile (· == ' ') = cs := by
    cases cs with
    | nil => rfl
    | cons c cs => simpa using hhead (by simp)
  have hr : cs.rdropWhile (· == ' ') = cs := List.rdropWhile_eq_self_iff.mpr (by simpa using hlast)
  rw [trimSpaces, hl]
  exact hr

theorem trimSpaces_of_no_space {cs : List Char} (h : ' ' ∉ cs) : trimSpaces cs = cs :=
  trimSpaces_of_ends (fun hne heq => h (heq ▸ List.head_mem hne)) (fun hne heq => h (heq ▸ List.getLast_mem hne))

theorem trimSpaces_statement {name args : List Char} (hname : ' ' ∉ name) (hne : name ≠ []) (hargs : ' ' ∉ args)
    (hargs' : args ≠ []) : trimSpaces (name ++ ' ' :: args) = name ++ ' ' :: args := by
  refine trimSpaces_of_ends (fun _ heq => hname ?_) (fun _ heq => hargs ?_)
  · rw [List.head_append_of_ne_nil hne] at heq
    exact heq ▸ List.head_mem hne
  · rw [List.getLast_append_of_ne_nil _ (by simp), List.getLast_cons hargs'] at heq
    exact heq ▸ List.getLast_mem hargs'

theorem operandTexts_cons_space {args : List Char} (hargs : ' ' ∉ args) (hne : args ≠ []) :
    operandTexts (' ' :: args) = (splitAtChar ',' args).map trimSpaces := by
  have htrim : trimSpaces (' ' :: args) = args := trimSpaces_of_no_space hargs
  rw [operandTexts, htrim]
  cases args with
  | nil => exact absurd rfl hne
  | cons => rfl

theorem operandTexts_one {a : List Char} (ha : PlainText a) (hne : a ≠ []) : operandTexts (' ' :: a) = [a] := by
  rw [operandTexts_cons_space ha.no_space hne, splitAtChar_of_not_mem ha.no_comma, List.map_singleton,
    trimSpaces_of_no_space ha.no_space]

theorem operandTexts_two {a b : List Char} (ha : PlainText a) (hb : PlainText b) :
    operandTexts (' ' :: a ++ ',' :: b) = [a, b] := by
  have hspace : ' ' ∉ a ++ ',' :: b := by simp [ha.no_space, hb.no_space]
  rw [List.cons_append, operandTexts_cons_space hspace (by simp), splitAtChar_append ha.no_comma,
    splitAtChar_of_not_mem hb.no_comma, List.map_cons, List.map_singleton, trimSpaces_of_no_space ha.no_space,
    trimSpaces_of_no_space hb.no_space]

/-! ## Reading a statement -/

theorem find?_mnemonicChars (m : Mnemonic) :
    Mnemonic.all.find? (fun n => Mnemonic.chars n == Mnemonic.chars m) = some m := by
  cases m <;> rfl

/-- The part of `parseInstr` after the statement is split (`parseInstr_statement`). -/
def parseOperands (m : Mnemonic) (ops : List (List Char)) : Option Instr :=
  match m.format, ops with
  | .f0, [] => some (instrOf m 0 0)
  | .f1r, [r] => (parseReg r).map fun n => instrOf m n 0
  | .f2rr, [a, b] => (parseReg a).bind fun x => (parseReg b).map fun y => instrOf m x y
  | .f2ri, [r, v] => (parseReg r).bind fun n => (parseImm v).map fun imm => instrOf m n imm
  | _, _ => none

theorem parseInstr_statement (m : Mnemonic) {args : List Char} (hargs : ' ' ∉ args) (hne : args ≠ []) :
    parseInstr (Mnemonic.chars m ++ ' ' :: args) = parseOperands m (operandTexts (' ' :: args)) := by
  have hname := (mnemonicChars_plain m).no_space
  have hchar : ∀ c ∈ Mnemonic.chars m, (c != ' ') = true := fun c hc => by
    simpa using (mnemonicChars_plain m c hc).1
  have htake : (Mnemonic.chars m ++ ' ' :: args).takeWhile (· != ' ') = Mnemonic.chars m := by
    simp [List.takeWhile_append_of_pos hchar]
  have hdrop : (Mnemonic.chars m ++ ' ' :: args).dropWhile (· != ' ') = ' ' :: args := by
    simp [List.dropWhile_append_of_pos hchar]
  simp only [parseInstr, trimSpaces_statement hname (mnemonicChars_ne_nil m) hargs hne, htake, hdrop,
    find?_mnemonicChars]
  rfl

theorem parseInstr_one (m : Mnemonic) {a : List Char} (ha : PlainText a) (hne : a ≠ []) :
    parseInstr (Mnemonic.chars m ++ ' ' :: a) = parseOperands m [a] := by
  rw [parseInstr_statement m ha.no_space hne, operandTexts_one ha hne]

theorem parseInstr_two (m : Mnemonic) {a b : List Char} (ha : PlainText a) (hb : PlainText b) :
    parseInstr (Mnemonic.chars m ++ (' ' :: a ++ ',' :: b)) = parseOperands m [a, b] := by
  rw [List.cons_append, parseInstr_statement m (by simp [ha.no_space, hb.no_space]) (by simp), ← List.cons_append,
    operandTexts_two ha hb]

/-- Every statement with registers in range reads back. -/
theorem parseInstr_printInstr {i : Instr} (h : i.registersInRange) : parseInstr (printInstr i) = some i := by
  cases i with
  | hlt => decide
  | ldi r imm =>
    obtain ⟨k, rfl⟩ := exists_regByte (h r (.head _))
    refine (parseInstr_two .ldi (regChars_plain _) (decimalChars_plain imm)).trans ?_
    simp [parseOperands, Mnemonic.format, parseReg_regChars, parseImm_decimalChars, instrOf]
  | prn r | push r | pop r | call r | jmp r | jeq r | jne r =>
    obtain ⟨k, rfl⟩ := exists_regByte (h r (.head _))
    refine (parseInstr_one _ (regChars_plain _) (List.cons_ne_nil _ _)).trans ?_
    simp [parseOperands, Mnemonic.format, parseReg_regChars, instrOf, Instr.mnemonic]
  | add a b | mul a b | cmp a b | and a b =>
    obtain ⟨j, rfl⟩ := exists_regByte (h a (.head _))
    obtain ⟨k, rfl⟩ := exists_regByte (h b (.tail _ (.head _)))
    refine (parseInstr_two _ (regChars_plain _) (regChars_plain _)).trans ?_
    simp [parseOperands, Mnemonic.format, parseReg_regChars, instrOf, Instr.mnemonic]

/-- A printed statement is one statement of a listing. -/
theorem semicolon_not_mem_printInstr (i : Instr) : ';' ∉ printInstr i := by
  have hname := (mnemonicChars_plain i.mnemonic).no_semicolon
  have hreg := fun n => (regChars_plain n).no_semicolon
  have himm := fun v => (decimalChars_plain v).no_semicolon
  cases i <;> simp [printInstr, hname, hreg, himm]

/-- Settles O57: a statement reads back (`parseInstr_printInstr`), and a listing of it has no separator to split at. -/
theorem assemblyReadsBack : Obligations.AssemblyReadsBack := by
  intro c i h
  refine ⟨parseInstr_printInstr h, ?_⟩
  rw [assemble, splitAtChar_of_not_mem (semicolon_not_mem_printInstr i)]
  simp [parseInstr_printInstr h]

end Sys2Proof.Machine
